-- ==== Sys2Proof/Word.lean ====
section
/-!
DEFINITION. The words of the machine (spec/00_scope.md R5): an unsigned 8-bit byte for every register,
memory cell and operand byte, and the 9-bit program counter (spec/10_state.md R14). An address is an
integer (spec/20_memory.md R30), so that -1 and 256 can be spoken of; a memory cell's key is a Nat.
-/

namespace Sys2Proof

/-- A register, a memory cell, an operand byte or an output value: unsigned, 0 to 255 (R5). -/
abbrev Byte := BitVec 8

/-- The program counter: 9 bits, unsigned (R14; decision D9 of the spec, log 4). -/
abbrev PcWord := BitVec 9

/-- A register's number after the index check, 0 to 7 (R11). -/
abbrev RegIndex := Fin 8

end Sys2Proof
end

