-- ==== Sys2Proof/Config.lean ====
section
/-!
DEFINITION. The parameters of the machine (spec/00_scope.md R4) and the names of its 15 instructions,
over which the one open parameter OPCODE_MAP ranges. The values of OPCODE_MAP for this hardware stand in
Decode.lean (`opcodeMap`). There is no free value: the spec leaves no result open (log 11).
-/

namespace Sys2Proof

/-- `MEM_SIZE`, the number of memory cells (R4). -/
abbrev Config.memSize : Nat := 256

/-- `SP_INDEX`, the register that is the stack pointer (R4, R12). -/
abbrev Config.spIndex : RegIndex := 7

/-- `SP_RESET`, the reset value of the stack pointer (R4, R12). -/
abbrev Config.spReset : Byte := 0xF4

/-- `PC_RESET`, the reset value of the program counter, which is the entry point (R4, R14, R23). -/
abbrev Config.pcReset : PcWord := 0

/-- `GPR_RESET`, the reset value of registers 0 to 6 (R4, R23; decision D8 of the spec, log 2, unsafe). -/
abbrev Config.gprReset : Byte := 0

/-- `FL_RESET`, the reset value of the flags register (R4, R23; decision D8 of the spec, log 2, unsafe). -/
abbrev Config.flReset : Byte := 0

/-- The 15 instructions by name: the closed list of spec/30_encoding.md R53. -/
inductive Mnemonic where
  | add | sub | mul | div | cmp
  | ldi | prn | push | pop | call | ret | jmp | jeq | jne | hlt
deriving DecidableEq, Repr

/-- The four instruction formats of spec/30_encoding.md R50. -/
inductive Format where
  | op    -- the opcode byte alone
  | opR   -- opcode, register index
  | opRI  -- opcode, register index, immediate literal
  | opRR  -- opcode, register index, register index
deriving DecidableEq, Repr

/-- `OPCODE_MAP` (R4, R53, R61): the opcode byte of each instruction, the one parameter the spec leaves
open (decision D1 of the spec, log 1). -/
abbrev OpcodeMap := Mnemonic → Byte

end Sys2Proof
end

