-- ==== Sys2Proof/Machine/State.lean ====
section
/-!
DEFINITION. The state of the machine as plain data (spec/10_state.md R10: the tuple is complete), the
reset state (R23) and the outcome types of a step.
-/

namespace Sys2Proof.Machine

/-- The codes of the fault status record (spec/60_exceptions.md R120); their numbers 0 to 5 are
`FaultCode.number`. -/
inductive FaultCode where
  /-- 0: no fault. -/
  | none
  /-- 1, R121: an opcode with bit 5 clear that is no control instruction. -/
  | unknownInstruction
  /-- 2, R122: DIV with a zero divisor. -/
  | divideByZero
  /-- 3, R123: an opcode with bit 5 set that is no ALU operation. -/
  | aluUndefinedOp
  /-- 4, R124: an address, stack pointer or return address outside 0 to 255. -/
  | memoryRange
  /-- 5, R125: a register-index operand above 7. -/
  | registerIndexRange
deriving DecidableEq, Repr

/-- The fault status record (spec/10_state.md R19). -/
structure FaultStatus where
  /-- The cause. -/
  code : FaultCode
  /-- What R120 records with the code: an integer. -/
  info : Int
deriving DecidableEq, Repr

/-- Memory: the cells that differ from what an unlisted address reads as, addresses strictly rising
(`Memory.wf` of Ops.lean). Spec/10_state.md R21. -/
abbrev Memory := List Host.Cell

/-- The complete state (spec/10_state.md R10, R20, R22). -/
structure State where
  /-- `x[0]` to `x[7]` (R11); register 7 is the stack pointer (R12). -/
  regs : Vector Byte 8
  /-- `pc` (R14). -/
  pc : PcWord
  /-- `fl`, the flags register: L is bit 2, G is bit 1, E is bit 0 (R16). -/
  fl : Byte
  /-- `running`: true is RUNNING, false is HALTED (R18). -/
  running : Bool
  /-- `fault`, the fault status record (R19). -/
  fault : FaultStatus
  /-- `mem`, the 256 memory cells (R21). -/
  mem : Memory
  /-- `out`, the output log, oldest value first (R21). -/
  out : List Byte
deriving DecidableEq, Repr

/-- The reset state: R23 and spec/70_reset_and_hazards.md R140. Registers 0 to 6 and the flags hold the
zero that R23 states by decision D8 of the spec (log 2, unsafe). -/
def State.reset : State where
  regs := (Vector.replicate 8 Config.gprReset).set Config.spIndex.val Config.spReset
  pc := Config.pcReset
  fl := Config.flReset
  running := true
  fault := ⟨.none, 0⟩
  mem := []
  out := []

/-- Reasons a run stops outside the machine's own description. There is none, and no step raises one:
each of the five faults of R120 has a described entry (R126), which the machine TAKES as a next state
with `running` false, so this type has no constructor (safe). -/
inductive Fault where
deriving DecidableEq, Repr

/-- Reasons an instruction has no meaning. -/
inductive Refusal where
  /-- Raised by an arm of `exec` whose instruction has no meaning; no arm does, every row of
  spec/opcode_table.json has its meaning (safe). -/
  | notModelled (mnemonic : String)
deriving DecidableEq, Repr

/-- What a meaning and a step answer. -/
abbrev Result := Host.Outcome State Fault Refusal

end Sys2Proof.Machine
end

