-- ==== Sys2Proof/Machine/Ops.lean ====
section
/-!
DEFINITION. The named operations on memory, registers, program counter, output log and fault status, and
the one operation by which every meaning ends: commit all its effects, or take its fault and commit none
(spec/40_dispatch.md R76). There is no return from a fault (spec/60_exceptions.md R129), so no operation
for one.
-/

namespace Sys2Proof.Machine

/-- What an address that memory does not list reads as: memory is zero-initialised (R21, R23). -/
def Memory.unlisted : Byte := 0

/-- The byte at an address. -/
def Memory.read : Memory → Nat → Byte
  | [], _ => Memory.unlisted
  | (a, v) :: m, k => if a = k then v else Memory.read m k

/-- The cell list without any entry for an address. -/
def Memory.erase (m : Memory) (k : Nat) : Memory :=
  m.filter fun c => c.1 ≠ k

/-- Put a cell in front of the first one with a larger address. -/
def Memory.insert : Memory → Nat → Byte → Memory
  | [], k, v => [(k, v)]
  | (a, w) :: m, k, v => if k < a then (k, v) :: (a, w) :: m else (a, w) :: Memory.insert m k v

/-- Store a byte at an address, keeping the canonical form. -/
def Memory.write (m : Memory) (k : Nat) (v : Byte) : Memory :=
  if v = Memory.unlisted then m.erase k else (m.erase k).insert k v

/-- The canonical form: addresses strictly rising, all of them 0 to 255 (R30), and no cell that holds
what an unlisted address reads as. -/
abbrev Memory.wf (m : Memory) : Prop :=
  m.Pairwise (fun c d => c.1 < d.1) ∧ ∀ c ∈ m, c.1 < Config.memSize ∧ c.2 ≠ Memory.unlisted

/-- The number of a fault code (spec/60_exceptions.md R120). -/
def FaultCode.number : FaultCode → Nat
  | .none => 0
  | .unknownInstruction => 1
  | .divideByZero => 2
  | .aluUndefinedOp => 3
  | .memoryRange => 4
  | .registerIndexRange => 5

/-- `UnknownInstruction(ir)`, R121. -/
def unknownInstruction (ir : Byte) : FaultStatus := ⟨.unknownInstruction, ir.toNat⟩

/-- `DivideByZero(rb)`, R122. -/
def divideByZero (rb : RegIndex) : FaultStatus := ⟨.divideByZero, rb.val⟩

/-- `AluUndefinedOp(ir)`, R123. -/
def aluUndefinedOp (ir : Byte) : FaultStatus := ⟨.aluUndefinedOp, ir.toNat⟩

/-- `MemoryRange(addr)`, R124. -/
def memoryRange (addr : Int) : FaultStatus := ⟨.memoryRange, addr⟩

/-- `RegisterIndexRange(v)`, R125. -/
def registerIndexRange (v : Byte) : FaultStatus := ⟨.registerIndexRange, v.toNat⟩

/-- `x[r]` (spec/00_scope.md R6): no register is hardwired, and a read has no side effect (R11). -/
def State.reg (s : State) (r : RegIndex) : Byte :=
  s.regs[r]

/-- `x[r] <- v` (R6). -/
def State.setReg (s : State) (r : RegIndex) (v : Byte) : State :=
  { s with regs := s.regs.set r.val v }

/-- `pc <- t` for a transfer target, a byte (spec/44_control_transfer.md R105). -/
def State.setPc (s : State) (t : Byte) : State :=
  { s with pc := t.setWidth 9 }

/-- `pc <- pc + w`, `w` the instruction's width (spec/10_state.md R15). -/
def State.advance (s : State) (w : Nat) : State :=
  { s with pc := s.pc + BitVec.ofNat 9 w }

/-- `fl <- v` (R16). -/
def State.setFl (s : State) (v : Byte) : State :=
  { s with fl := v }

/-- Memory after a store. -/
def State.setMem (s : State) (m : Memory) : State :=
  { s with mem := m }

/-- `Emit(v)`: append to the output log (R6, R21). -/
def State.emit (s : State) (v : Byte) : State :=
  { s with out := s.out ++ [v] }

/-- `running <- false` (R18). -/
def State.halt (s : State) : State :=
  { s with running := false }

/-- Fault entry (spec/60_exceptions.md R126): `running <- false; fault <- (code, info)`, nothing else. -/
def State.takeFault (s : State) (f : FaultStatus) : State :=
  { s with running := false, fault := f }

/-- `MemRead(a, 1)` (spec/20_memory.md R31). -/
def memRead (s : State) (a : Int) : Except FaultStatus Byte :=
  if 0 ≤ a ∧ a < Config.memSize then .ok (s.mem.read a.toNat) else .error (memoryRange a)

/-- `MemWrite(a, 1, v)` (R31). -/
def memWrite (s : State) (a : Int) (v : Byte) : Except FaultStatus State :=
  if 0 ≤ a ∧ a < Config.memSize then .ok (s.setMem (s.mem.write a.toNat v))
  else .error (memoryRange a)

/-- The end of every meaning (R76, R7): the state with all its effects, or fault entry from the state the
instruction started in. -/
def commit (s : State) (effect : Except FaultStatus State) : Result :=
  match effect with
  | .ok t => .next t
  | .error f => .next (s.takeFault f)

end Sys2Proof.Machine
end

