-- ==== Sys2Proof/Machine/Flags.lean ====
section
/-!
DEFINITION. The flags register (spec/10_state.md R16, R17): its three bits, the value CMP writes
(spec/41_alu.md R85) and the one bit JEQ and JNE read.
-/

namespace Sys2Proof.Machine

/-- L, less-than, is bit 2 (R16; decision D7 of the spec, log 3). -/
def flagL : Byte := 0b00000100

/-- G, greater-than, is bit 1. -/
def flagG : Byte := 0b00000010

/-- E, equal, is bit 0. -/
def flagE : Byte := 0b00000001

/-- What CMP writes: exactly one flag, by the unsigned comparison (R85). -/
def compareFlags (u v : Byte) : Byte :=
  if u.toNat < v.toNat then flagL else if u.toNat > v.toNat then flagG else flagE

/-- `fl[0] = 1`, the E flag (R103, R104). -/
def equalFlag (fl : Byte) : Bool :=
  fl.getLsbD 0

/-- The values `fl` can have (R16): 0 before any CMP, else one flag. -/
abbrev legalFlags (fl : Byte) : Prop :=
  fl = 0 ∨ fl = flagL ∨ fl = flagG ∨ fl = flagE

end Sys2Proof.Machine
end

