-- ==== Sys2Proof/Machine/Operands.lean ====
section
/-!
DEFINITION. The operand forms: the register index (spec/40_dispatch.md R75), the stack slot addressed
through register 7 (spec/20_memory.md R42, spec/43_stack.md) and CALL's return address
(spec/44_control_transfer.md R100). LDI's literal is the operand byte as it stands (R52).
-/

namespace Sys2Proof.Machine

/-- `RegIdx(v)` (R75): the whole byte is the index, never masked. -/
def regIdx (v : Byte) : Except FaultStatus RegIndex :=
  if h : v.toNat < 8 then .ok ⟨v.toNat, h⟩ else .error (registerIndexRange v)

/-- The stack pointer, register 7 (spec/10_state.md R12). -/
def State.sp (s : State) : Byte :=
  s.reg Config.spIndex

/-- `x[7] <- v`. -/
def State.setSp (s : State) (v : Byte) : State :=
  s.setReg Config.spIndex v

/-- The stack pointer one below, which is the address a push stores at: it may not leave 0 to 255
(R42, R95). -/
def stackDown (sp : Byte) : Except FaultStatus Byte :=
  if sp = 0 then .error (memoryRange (-1)) else .ok (sp - 1)

/-- The stack pointer one above, after a pop: it may not leave 0 to 255 (R42, R96). -/
def stackUp (v : Byte) : Except FaultStatus Byte :=
  if v = 0xFF then .error (memoryRange 256) else .ok (v + 1)

/-- CALL's return address `pc + 2`, one byte (R100, C1): an address above 255 is MemoryRange(256). -/
def returnAddress (pc : PcWord) : Except FaultStatus Byte :=
  if pc.toNat + 2 > 255 then .error (memoryRange 256) else .ok (BitVec.ofNat 8 (pc.toNat + 2))

end Sys2Proof.Machine
end

