-- ==== Sys2Proof/Machine/Alu.lean ====
section
/-!
DEFINITION. The ALU instructions ADD, SUB, MUL, DIV, CMP (spec/41_alu.md R80 to R86). The operand bytes
have been fetched; each meaning checks `a` then `b` and ends with `pc + 3`.
-/

namespace Sys2Proof.Machine

/-- `trunc8(n) = n mod 256` of an exact integer (spec/00_scope.md R5). -/
def trunc8 (n : Int) : Byte :=
  BitVec.ofInt 8 n

/-- R81, R86: the sum, cut to eight bits. -/
def aluAdd (u v : Byte) : Byte := trunc8 ((u.toNat : Int) + v.toNat)

/-- R82, R86: the difference, cut to eight bits. -/
def aluSub (u v : Byte) : Byte := trunc8 ((u.toNat : Int) - v.toNat)

/-- R83, R86: the product, cut to eight bits. -/
def aluMul (u v : Byte) : Byte := trunc8 ((u.toNat : Int) * v.toNat)

/-- R84, R86: the unsigned quotient rounded down; called with a divisor that is not 0. -/
def aluDiv (u v : Byte) : Byte := trunc8 ((u.toNat / v.toNat : Nat) : Int)

/-- The frame of ADD, SUB and MUL (R80): `x[ra] <- f x[ra] x[rb]`, `pc <- pc + 3`. -/
def aluInPlace (f : Byte → Byte → Byte) (a b : Byte) (s : State) : Result :=
  commit s do
    let ra ← regIdx a
    let rb ← regIdx b
    .ok ((s.setReg ra (f (s.reg ra) (s.reg rb))).advance 3)

/-- ADD, R81. -/
def execAdd (a b : Byte) (s : State) : Result :=
  aluInPlace aluAdd a b s

/-- SUB, R82. -/
def execSub (a b : Byte) (s : State) : Result :=
  aluInPlace aluSub a b s

/-- MUL, R83. -/
def execMul (a b : Byte) (s : State) : Result :=
  aluInPlace aluMul a b s

/-- DIV, R84: after both index checks, a zero divisor raises DivideByZero(rb). -/
def execDiv (a b : Byte) (s : State) : Result :=
  commit s do
    let ra ← regIdx a
    let rb ← regIdx b
    if s.reg rb = 0 then .error (divideByZero rb)
    else .ok ((s.setReg ra (aluDiv (s.reg ra) (s.reg rb))).advance 3)

/-- CMP, R85: writes all of `fl`, no register. -/
def execCmp (a b : Byte) (s : State) : Result :=
  commit s do
    let ra ← regIdx a
    let rb ← regIdx b
    .ok ((s.setFl (compareFlags (s.reg ra) (s.reg rb))).advance 3)

end Sys2Proof.Machine
end

