-- ==== Sys2Proof/Machine/Stack.lean ====
section
/-!
DEFINITION. PUSH and POP (spec/43_stack.md R95 to R97) and the push they share with CALL. Effects happen
in the order the rules list them, each seeing the ones before it (spec/40_dispatch.md R77, log 9).
-/

namespace Sys2Proof.Machine

/-- `x[7] <- x[7] - 1`, then `MemWrite(x[7], 1, v)` with `v` taken from the state after the decrement. -/
def pushByte (s : State) (v : State → Byte) : Except FaultStatus State := do
  let sp ← stackDown s.sp
  let s1 := s.setSp sp
  memWrite s1 sp.toNat (v s1)

/-- PUSH, R95: the register is read after the decrement, so PUSH R7 stores the decremented pointer. -/
def execPush (a : Byte) (s : State) : Result :=
  commit s do
    let ra ← regIdx a
    let t ← pushByte s fun s1 => s1.reg ra
    .ok (t.advance 2)

/-- POP, R96: the load comes before the increment, so POP R7 leaves the loaded byte plus 1. -/
def execPop (a : Byte) (s : State) : Result :=
  commit s do
    let ra ← regIdx a
    let t ← memRead s s.sp.toNat
    let sp ← stackUp (if ra = Config.spIndex then t else s.sp)
    .ok (((s.setReg ra t).setSp sp).advance 2)

end Sys2Proof.Machine
end

