-- ==== Sys2Proof/Machine/Control.lean ====
section
/-!
DEFINITION. CALL, RET, JMP, JEQ, JNE (spec/44_control_transfer.md R100 to R106) and HLT
(spec/45_halt.md R110).
-/

namespace Sys2Proof.Machine

/-- CALL, R100: the return address is checked before the stack pointer, and the destination register is
read after the decrement. -/
def execCall (a : Byte) (s : State) : Result :=
  commit s do
    let ra ← regIdx a
    let ret ← returnAddress s.pc
    let t ← pushByte s fun _ => ret
    .ok (t.setPc (t.reg ra))

/-- RET, R101. -/
def execRet (s : State) : Result :=
  commit s do
    let t ← memRead s s.sp.toNat
    let sp ← stackUp s.sp
    .ok ((s.setSp sp).setPc t)

/-- JMP, R102. -/
def execJmp (a : Byte) (s : State) : Result :=
  commit s do
    let ra ← regIdx a
    .ok (s.setPc (s.reg ra))

/-- JEQ, R103: the index is checked whether or not the jump is taken. -/
def execJeq (a : Byte) (s : State) : Result :=
  commit s do
    let ra ← regIdx a
    if equalFlag s.fl then .ok (s.setPc (s.reg ra)) else .ok (s.advance 2)

/-- JNE, R104: the index is checked whether or not the jump is taken. -/
def execJne (a : Byte) (s : State) : Result :=
  commit s do
    let ra ← regIdx a
    if equalFlag s.fl then .ok (s.advance 2) else .ok (s.setPc (s.reg ra))

/-- HLT, R110: `pc` and everything else stay (decision D18 of the spec, log 7). -/
def execHlt (s : State) : Result :=
  commit s (.ok s.halt)

end Sys2Proof.Machine
end

