-- ==== Sys2Proof/Machine/LoadPrint.lean ====
section
/-!
DEFINITION. LDI and PRN (spec/42_load_print.md R90, R91).
-/

namespace Sys2Proof.Machine

/-- LDI, R90: the literal `b` is any byte and is not checked. -/
def execLdi (a b : Byte) (s : State) : Result :=
  commit s do
    let ra ← regIdx a
    .ok ((s.setReg ra b).advance 3)

/-- PRN, R91: the output log keeps the 8-bit value (decision D21 of the spec, log 8). -/
def execPrn (a : Byte) (s : State) : Result :=
  commit s do
    let ra ← regIdx a
    .ok ((s.emit (s.reg ra)).advance 2)

end Sys2Proof.Machine
end

