-- ==== Sys2Proof/Syntax.lean ====
section
/-!
DEFINITION. The instructions (spec/30_encoding.md R53), one constructor per row of
spec/opcode_table.json. An operand is the whole operand byte as it was fetched (R52): `a` the first,
`b` the second. A register index above 7 is no decoding error; the instruction runs and raises
RegisterIndexRange (spec/40_dispatch.md R75), so the byte is kept whole here.
-/

namespace Sys2Proof

/-- An instruction with its operand bytes. -/
inductive Instr where
  /-- ADD, R81: register indices `a` (destination) and `b`. -/
  | add (a b : Byte)
  /-- SUB, R82: register indices `a` (destination) and `b`. -/
  | sub (a b : Byte)
  /-- MUL, R83: register indices `a` (destination) and `b`. -/
  | mul (a b : Byte)
  /-- DIV, R84: register indices `a` (destination) and `b` (divisor). -/
  | div (a b : Byte)
  /-- CMP, R85: register indices `a` (left) and `b` (right). -/
  | cmp (a b : Byte)
  /-- LDI, R90: register index `a` and the literal `b`. -/
  | ldi (a b : Byte)
  /-- PRN, R91: register index `a`. -/
  | prn (a : Byte)
  /-- PUSH, R95: register index `a`. -/
  | push (a : Byte)
  /-- POP, R96: register index `a`. -/
  | pop (a : Byte)
  /-- CALL, R100: register index `a` of the register that holds the destination. -/
  | call (a : Byte)
  /-- RET, R101. -/
  | ret
  /-- JMP, R102: register index `a` of the register that holds the destination. -/
  | jmp (a : Byte)
  /-- JEQ, R103: register index `a` of the register that holds the destination. -/
  | jeq (a : Byte)
  /-- JNE, R104: register index `a` of the register that holds the destination. -/
  | jne (a : Byte)
  /-- HLT, R110. -/
  | hlt
deriving DecidableEq, Repr

end Sys2Proof
end

