-- ==== Sys2Proof/WellFormed.lean ====
section
/-!
DEFINITION. When an instruction's operand bytes are legal (spec/30_encoding.md R52, the "legal" column of
spec/opcode_table.json): every register index is 0 to 7, and a literal is any byte. An ill-formed
instruction still decodes and still runs: it takes the fault RegisterIndexRange (R75).
-/

namespace Sys2Proof

/-- The operand bytes that are register indices, in operand order (R50, R52). LDI's literal is none. -/
def Instr.regOperands : Instr → List Byte
  | .add a b | .sub a b | .mul a b | .div a b | .cmp a b => [a, b]
  | .ldi a _ | .prn a | .push a | .pop a | .call a | .jmp a | .jeq a | .jne a => [a]
  | .ret | .hlt => []

/-- Every register-index operand is a register's number (R52). -/
def Instr.wellFormed (i : Instr) : Bool :=
  i.regOperands.all fun v => decide (v ≤ 7)

end Sys2Proof
end

