-- ==== Sys2Proof/Decode.lean ====
section
/-!
DEFINITION. The decoder and the encoder (spec/30_encoding.md R50 to R58), over any opcode map, and this
hardware's map. Decoding is total: a list of bytes gives an instruction and the bytes after it, or a
rejection by name.
-/

namespace Sys2Proof

/-- OPCODE_MAP with this hardware's values (R53; decisions D1 and D3 of the spec, log 1). -/
def opcodeMap : OpcodeMap
  | .add => 0b10100000
  | .sub => 0b10100001
  | .mul => 0b10100010
  | .div => 0b10100011
  | .cmp => 0b10100111
  | .ldi => 0b10000010
  | .prn => 0b01000111
  | .push => 0b01000101
  | .pop => 0b01000110
  | .call => 0b01010000
  | .ret => 0b00010001
  | .jmp => 0b01010100
  | .jeq => 0b01010101
  | .jne => 0b01010110
  | .hlt => 0b00000001

/-- The format of each instruction (R50). -/
def Mnemonic.format : Mnemonic → Format
  | .add | .sub | .mul | .div | .cmp => .opRR
  | .ldi => .opRI
  | .prn | .push | .pop | .call | .jmp | .jeq | .jne => .opR
  | .ret | .hlt => .op

/-- How many operand bytes follow the opcode (R50). -/
def Format.operandCount : Format → Nat
  | .op => 0
  | .opR => 1
  | .opRI | .opRR => 2

/-- How many operand bytes an instruction has (R50, R58). -/
def Mnemonic.operandCount (k : Mnemonic) : Nat :=
  k.format.operandCount

/-- The ALU operations, entered through the ALU path (R51, R54). -/
def aluTable : List Mnemonic :=
  [.add, .sub, .mul, .div, .cmp]

/-- The fixed table of control handlers (R51, R54). -/
def controlTable : List Mnemonic :=
  [.ldi, .prn, .push, .pop, .call, .ret, .jmp, .jeq, .jne, .hlt]

/-- What R61 (a) to (c) requires of an opcode map: the 15 bytes are distinct, bit 5 is set exactly for
the ALU operations, and 0 is no opcode. Part (d) follows: `Mnemonic.operandCount` is R50's count, and
distinct bytes determine the instruction. -/
abbrev OpcodeMap.Legal (m : OpcodeMap) : Prop :=
  ((aluTable ++ controlTable).map m).Nodup ∧
  (∀ k ∈ aluTable, (m k).getLsbD 5 = true) ∧
  (∀ k ∈ controlTable, (m k).getLsbD 5 = false) ∧
  (∀ k ∈ aluTable ++ controlTable, m k ≠ 0)

/-- The classes of an opcode byte (R54). -/
inductive OpClass where
  | known (k : Mnemonic)
  | aluUndefined
  | unknown
deriving DecidableEq, Repr

/-- R54: bit 5 first, then a match of the whole byte against the table of that path. -/
def classify (m : OpcodeMap) (ir : Byte) : OpClass :=
  if ir.getLsbD 5 then
    match aluTable.find? fun k => m k == ir with
    | some k => .known k
    | none => .aluUndefined
  else
    match controlTable.find? fun k => m k == ir with
    | some k => .known k
    | none => .unknown

/-- The instruction of a name with operand bytes `a` and `b`, of which it takes those it has (R50). -/
def Mnemonic.instr : Mnemonic → Byte → Byte → Instr
  | .add, a, b => .add a b
  | .sub, a, b => .sub a b
  | .mul, a, b => .mul a b
  | .div, a, b => .div a b
  | .cmp, a, b => .cmp a b
  | .ldi, a, b => .ldi a b
  | .prn, a, _ => .prn a
  | .push, a, _ => .push a
  | .pop, a, _ => .pop a
  | .call, a, _ => .call a
  | .ret, _, _ => .ret
  | .jmp, a, _ => .jmp a
  | .jeq, a, _ => .jeq a
  | .jne, a, _ => .jne a
  | .hlt, _, _ => .hlt

/-- Why bytes give no instruction. -/
inductive DecodeError where
  /-- There is no opcode byte. -/
  | noOpcode
  /-- R55: bit 5 clear and not in the control table. -/
  | unknown (ir : Byte)
  /-- The bytes end before the last operand byte (R72, R74). -/
  | truncated
  /-- R56: bit 5 set and none of the ALU operations; both operand bytes are there. -/
  | aluUndefined (ir : Byte)
deriving DecidableEq, Repr

/-- Decode the instruction at the head of a byte list (R50, R54): the instruction and the bytes after it.
The order of the rejections is the order of spec/60_exceptions.md R128, 2 to 4: an unknown opcode looks
at no operand byte, an undefined ALU operation is rejected once its two operand bytes are there. -/
def decodeWith (m : OpcodeMap) : List Byte → Except DecodeError (Instr × List Byte)
  | [] => .error .noOpcode
  | ir :: rest =>
    match classify m ir with
    | .unknown => .error (.unknown ir)
    | .aluUndefined =>
      match rest with
      | _ :: _ :: _ => .error (.aluUndefined ir)
      | _ => .error .truncated
    | .known k =>
      match k.operandCount, rest with
      | 0, rest => .ok (k.instr 0 0, rest)
      | 1, a :: rest => .ok (k.instr a 0, rest)
      | 2, a :: b :: rest => .ok (k.instr a b, rest)
      | _, _ => .error .truncated

/-- The decoder of this hardware. -/
def decode (bytes : List Byte) : Except DecodeError (Instr × List Byte) :=
  decodeWith opcodeMap bytes

/-- The name of an instruction. -/
def Instr.mnemonic : Instr → Mnemonic
  | .add _ _ => .add
  | .sub _ _ => .sub
  | .mul _ _ => .mul
  | .div _ _ => .div
  | .cmp _ _ => .cmp
  | .ldi _ _ => .ldi
  | .prn _ => .prn
  | .push _ => .push
  | .pop _ => .pop
  | .call _ => .call
  | .ret => .ret
  | .jmp _ => .jmp
  | .jeq _ => .jeq
  | .jne _ => .jne
  | .hlt => .hlt

/-- The operand bytes of an instruction, in ascending address order (R50, R33). -/
def Instr.operands : Instr → List Byte
  | .add a b | .sub a b | .mul a b | .div a b | .cmp a b | .ldi a b => [a, b]
  | .prn a | .push a | .pop a | .call a | .jmp a | .jeq a | .jne a => [a]
  | .ret | .hlt => []

/-- The bytes of an instruction in ascending address order: opcode, then operands (R33, R50). -/
def encodeWith (m : OpcodeMap) (i : Instr) : List Byte :=
  m i.mnemonic :: i.operands

/-- The encoder of this hardware. -/
def encode (i : Instr) : List Byte :=
  encodeWith opcodeMap i

/-- How many bytes an instruction occupies (R50, R58). -/
def Instr.width (i : Instr) : Nat :=
  1 + i.mnemonic.operandCount

/-- The three bytes, the longest instruction, that the number `w` gives: the byte at pc is its low eight
bits, and every bit from `nbits` on is 0 (the numbering of spec/opcode_table.json). -/
def tableBytes (nbits w : Nat) : List Byte :=
  let v := w % 2 ^ nbits
  [BitVec.ofNat 8 v, BitVec.ofNat 8 (v / 2 ^ 8), BitVec.ofNat 8 (v / 2 ^ 16)]

/-- The instruction the decoder reads from the bits `w` of a row of spec/opcode_table.json. -/
def decodeTableWord (nbits w : Nat) : Option Instr :=
  match decode (tableBytes nbits w) with
  | .ok (i, _) => some i
  | .error _ => none

end Sys2Proof
end

