-- ==== Sys2Proof/Machine/Fetch.lean ====
section
/-!
DEFINITION. Fetching an instruction (spec/40_dispatch.md R70 to R74): the bytes at the program counter, as
far as memory reaches, given to the decoder; a rejection is the fault the spec names. Also the placing of
bytes at the program counter, and the host's program load (spec/70_reset_and_hazards.md R142).
-/

namespace Sys2Proof.Machine

/-- At most `n` bytes from address `k` on, none beyond the last address of memory. -/
def Memory.window (m : Memory) : Nat → Nat → List Byte
  | _, 0 => []
  | k, n + 1 => if k < Config.memSize then m.read k :: Memory.window m (k + 1) n else []

/-- Store bytes at ascending addresses from `k` on; a byte beyond the last address of memory is dropped. -/
def Memory.place (m : Memory) : Nat → List Byte → Memory
  | _, [] => m
  | k, b :: bs => if k < Config.memSize then Memory.place (m.write k b) (k + 1) bs else m

/-- The fault of a rejection at program counter `pc`: R71 for the opcode, R73 for an unknown instruction,
R72 and R74 for an operand byte (the first one outside memory is at address 256), R72 for an undefined
ALU operation. -/
def fetchFault (pc : PcWord) : DecodeError → FaultStatus
  | .noOpcode => memoryRange pc.toNat
  | .unknown ir => unknownInstruction ir
  | .truncated => memoryRange 256
  | .aluUndefined ir => aluUndefinedOp ir

/-- Fetch and decode the instruction at the program counter under an opcode map (R70). -/
def fetchWith (m : OpcodeMap) (s : State) : Except FaultStatus Instr :=
  match decodeWith m (s.mem.window s.pc.toNat 3) with
  | .ok (i, _) => .ok i
  | .error e => .error (fetchFault s.pc e)

/-- Fetch and decode with this hardware's opcode map. -/
def fetch (s : State) : Except FaultStatus Instr :=
  fetchWith opcodeMap s

/-- Put bytes where the next instruction is fetched. -/
def State.placeAtPc (s : State) (bytes : List Byte) : State :=
  { s with mem := s.mem.place s.pc.toNat bytes }

/-- Program load (R142): from reset, the bytes at addresses 0, 1, ...; more than 256 bytes is a load
error, and then there is no machine (log 10). -/
def loadProgram (bytes : List Byte) : Option State :=
  if bytes.length ≤ Config.memSize then some { State.reset with mem := Memory.place [] 0 bytes }
  else none

end Sys2Proof.Machine
end

