-- ==== Sys2Proof/Machine/Step.lean ====
section
/-!
DEFINITION. The step (spec/40_dispatch.md R70, R78) and the bounded run loop (R79).
-/

namespace Sys2Proof.Machine

/-- One step under an opcode map (R70): run the fetched instruction, or take the fault of the fetch. A
step of a HALTED machine does nothing (R78, log 6). -/
def stepWith (m : OpcodeMap) (s : State) : Host.Outcome State Fault Refusal :=
  if s.running then
    match fetchWith m s with
    | .ok i => exec i s
    | .error f => .next (s.takeFault f)
  else .next s

/-- One step of this hardware. -/
def step (s : State) : Host.Outcome State Fault Refusal :=
  stepWith opcodeMap s

/-- `run()` (R79), cut off after `n` steps: repeat `step` while `running`. -/
def runFor : Nat → State → Host.Outcome State Fault Refusal
  | 0, s => .next s
  | n + 1, s =>
    if s.running then
      match step s with
      | .next t => runFor n t
      | .fault f => .fault f
      | .refused r => .refused r
    else .next s

/-- `s` with the instruction of a row's bits stored at the program counter, where `step` fetches it. It
stands for the host's program load (log 10). A byte that would lie beyond address 255 is not stored, and
`running` is left as it is. -/
def State.withFetchWord (s : State) (nbits w : Nat) : State :=
  s.placeAtPc (tableBytes nbits w)

end Sys2Proof.Machine
end

