-- ==== Sys2Proof/Safety.lean ====
section
/-!
DEFINITION. What counts as a legal state and as the end of a run, in the terms the statements use.
-/

namespace Sys2Proof.Machine

/-- What `fault.info` may be for each code (spec/60_exceptions.md R120), `m` the opcode map. -/
def FaultStatus.Legal (m : OpcodeMap) (f : FaultStatus) : Prop :=
  match f.code with
  | .none => f.info = 0
  | .unknownInstruction => ∃ ir : Byte, f.info = ir.toNat ∧ classify m ir = .unknown
  | .divideByZero => 0 ≤ f.info ∧ f.info ≤ 7
  | .aluUndefinedOp => ∃ ir : Byte, f.info = ir.toNat ∧ classify m ir = .aluUndefined
  | .memoryRange => f.info = -1 ∨ f.info = 256
  | .registerIndexRange => 8 ≤ f.info ∧ f.info ≤ 255

/-- The invariant of the machine: memory is canonical, `pc` is 0 to 256 (spec/10_state.md R14), `fl` holds
at most one flag (R16), a RUNNING machine has no fault (R19), and the fault record is one of R120. -/
structure State.Inv (m : OpcodeMap) (s : State) : Prop where
  mem_wf : s.mem.wf
  pc_le : s.pc.toNat ≤ 256
  fl_legal : legalFlags s.fl
  running_no_fault : s.running = true → s.fault.code = .none
  fault_legal : s.fault.Legal m

/-- The bytes `bs` stand in memory from the program counter on. -/
def State.CodeAt (s : State) (bs : List Byte) : Prop :=
  s.pc.toNat + bs.length ≤ Config.memSize ∧
    ∀ k, ∀ h : k < bs.length, s.mem.read (s.pc.toNat + k) = bs[k]

/-- The operand byte that names register `r` (R52). -/
def regByte (r : RegIndex) : Byte :=
  BitVec.ofNat 8 r.val

/-- The register a byte names, none when it is above 7 (R52). -/
def namedReg (v : Byte) : List RegIndex :=
  if h : v.toNat < 8 then [⟨v.toNat, h⟩] else []

/-- The registers an instruction reads (the table of spec/10_state.md R13); JEQ and JNE read their
register only when the jump is taken. -/
def regsRead (i : Instr) (s : State) : List RegIndex :=
  match i with
  | .add a b | .sub a b | .mul a b | .div a b | .cmp a b => namedReg a ++ namedReg b
  | .ldi _ _ => []
  | .prn a | .jmp a => namedReg a
  | .push a | .call a => 7 :: namedReg a
  | .pop _ | .ret => [7]
  | .jeq a => if s.fl.getLsbD 0 then namedReg a else []
  | .jne a => if s.fl.getLsbD 0 then [] else namedReg a
  | .hlt => []

/-- The registers an instruction writes (the table of R13). -/
def regsWritten : Instr → List RegIndex
  | .add a _ | .sub a _ | .mul a _ | .div a _ | .ldi a _ => namedReg a
  | .pop a => namedReg a ++ [7]
  | .push _ | .call _ | .ret => [7]
  | .cmp _ _ | .prn _ | .jmp _ | .jeq _ | .jne _ | .hlt => []

/-- The first register-index operand above 7, in operand order (R75, R128 point 5). -/
def badIndex (i : Instr) : Option Byte :=
  i.regOperands.find? fun v => decide (7 < v.toNat)

/-- The fault of an instruction's own checks, in pseudocode order (spec/60_exceptions.md R128 point 6),
asked once its register indices are in range. -/
def ownFault (i : Instr) (s : State) : Option FaultStatus :=
  match i with
  | .div _ b => if s.regs[b.toNat]? = some 0 then some ⟨.divideByZero, b.toNat⟩ else none
  | .call _ =>
    if s.pc.toNat + 2 > 255 then some ⟨.memoryRange, 256⟩
    else if s.reg 7 = 0 then some ⟨.memoryRange, -1⟩ else none
  | .push _ => if s.reg 7 = 0 then some ⟨.memoryRange, -1⟩ else none
  | .pop a =>
    if (if a = 7 then s.mem.read (s.reg 7).toNat else s.reg 7) = 0xFF then some ⟨.memoryRange, 256⟩
    else none
  | .ret => if s.reg 7 = 0xFF then some ⟨.memoryRange, 256⟩ else none
  | .add _ _ | .sub _ _ | .mul _ _ | .cmp _ _ | .ldi _ _ | .prn _ | .jmp _ | .jeq _ | .jne _ | .hlt => none

/-- The fault that running a decoded instruction reports (R128 points 5 and 6). -/
def execFault (i : Instr) (s : State) : Option FaultStatus :=
  match badIndex i with
  | some v => some ⟨.registerIndexRange, v.toNat⟩
  | none => ownFault i s

/-- Every address reads as before. -/
def SameMemory (s t : State) : Prop :=
  ∀ x, t.mem.read x = s.mem.read x

/-- Every address but one reads as before. -/
def SameMemoryBut (k : Nat) (s t : State) : Prop :=
  ∀ x, x ≠ k → t.mem.read x = s.mem.read x

/-- Every register but those listed is as before. -/
def SameRegsBut (ws : List RegIndex) (s t : State) : Prop :=
  ∀ r, r ∉ ws → t.reg r = s.reg r

/-- The running flag and the fault record are as before, or `t` is `s` with fault entry and nothing else
(R126). -/
def SameStatusOrFault (s t : State) : Prop :=
  (t.running = s.running ∧ t.fault = s.fault) ∨ t = { s with running := false, fault := t.fault }

/-- A transition of the machine. A HALTED state has none (spec/40_dispatch.md R78, log 6). -/
def State.Succ (s t : State) : Prop :=
  s.running = true ∧ step s = .next t

/-- The machine stopped by HLT (R19, spec/70_reset_and_hazards.md R145). -/
def State.HaltedNormally (s : State) : Prop :=
  s.running = false ∧ s.fault.code = .none

/-- The machine stopped by a fault (R19, R145). -/
def State.HaltedByFault (s : State) : Prop :=
  s.running = false ∧ s.fault.code ≠ .none

end Sys2Proof.Machine
end

