-- ==== Sys2Proof/Certificates/Slice0/Obligations.lean ====
section
/-!
DEFINITION. The statements for the provers. Each docstring names the rules of the spec it formalises; "D<n>"
is a decision the spec marks as its own (spec/92_eei_decisions.md), "log <n>" a row of notes/assumptions.
In every statement `regByte r` is the operand byte that names register `r`.
-/

open Sys2Proof Sys2Proof.Machine

/-! ### Reset -/

/-- R23, R140. Registers 0 to 6 and `fl` at 0 are decision D8 of the spec (log 2), the fault record is D10
(log 5); register 7, `pc`, `running` and memory are the source's. -/
def Obligations.ResetLeavesTheStatedValues : Prop :=
  State.reset.reg 7 = 0xF4 ∧ (∀ r : RegIndex, r ≠ 7 → State.reset.reg r = 0) ∧
  State.reset.pc = 0 ∧ State.reset.fl = 0 ∧ State.reset.running = true ∧
  State.reset.fault = ⟨.none, 0⟩ ∧ (∀ x, State.reset.mem.read x = 0) ∧ State.reset.out = []

/-- The reset state meets the invariant that `StepKeepsTheInvariant` is about. -/
def Obligations.ResetMeetsTheInvariant : Prop :=
  State.reset.Inv opcodeMap

/-- Source scenario T7 (95_test_vectors.md, P5): from reset with nothing loaded, the byte 0 at address 0
halts at once with no output, under every opcode map that R61 admits. -/
def Obligations.EmptyMemoryHaltsAtOnce : Prop :=
  ∀ m : OpcodeMap, m.Legal →
    stepWith m State.reset =
      .next { State.reset with running := false, fault := ⟨.unknownInstruction, 0⟩ }

/-- R142 (with D22, log 10): a program of at most 256 bytes fills memory from address 0 upward over zeros
and changes nothing else of the reset state; a longer one is a load error. -/
def Obligations.LoadFillsMemoryFromAddressZero : Prop :=
  ∀ bytes : List Byte,
    (bytes.length ≤ 256 → ∃ s, loadProgram bytes = some s ∧
      (∀ k, ∀ h : k < bytes.length, s.mem.read k = bytes[k]) ∧
      (∀ k, bytes.length ≤ k → s.mem.read k = 0) ∧
      s = { State.reset with mem := s.mem }) ∧
    (256 < bytes.length → loadProgram bytes = none)

/-! ### Encoding -/

/-- R61: this hardware's opcode map has distinct bytes, bit 5 set exactly for the ALU operations, and no
byte 0. The values are decisions D1 and D3 (log 1). -/
def Obligations.HardwareOpcodeMapIsLegal : Prop :=
  opcodeMap.Legal

/-- Under every opcode map that R61 admits, decoding an encoded instruction with any bytes after it gives
the instruction and those bytes. -/
def Obligations.DecodeEncodeAgree : Prop :=
  ∀ m : OpcodeMap, m.Legal → ∀ (i : Instr) (rest : List Byte),
    decodeWith m (encodeWith m i ++ rest) = .ok (i, rest)

/-- Whatever bytes decode are the encoding of the instruction they give, under any opcode map, so that no
two instructions share a word and no bit is ignored. -/
def Obligations.DecodedBytesAreTheEncoding : Prop :=
  ∀ (m : OpcodeMap) (bytes rest : List Byte) (i : Instr),
    decodeWith m bytes = .ok (i, rest) → bytes = encodeWith m i ++ rest

/-- R53, R54, R55, R56 on this hardware's map (D1 and D3, log 1): R53's table, which byte is which
instruction, and which bytes are undefined ALU operations and unknown instructions. -/
def Obligations.OpcodeBytesFallInFourClasses : Prop :=
  ∀ ir : Byte,
    (∀ k : Mnemonic, classify opcodeMap ir = .known k ↔
      (k, ir) ∈ ([(.add, 0xA0), (.sub, 0xA1), (.mul, 0xA2), (.div, 0xA3), (.cmp, 0xA7), (.ldi, 0x82),
        (.prn, 0x47), (.push, 0x45), (.pop, 0x46), (.call, 0x50), (.ret, 0x11), (.jmp, 0x54),
        (.jeq, 0x55), (.jne, 0x56), (.hlt, 0x01)] : List (Mnemonic × Byte))) ∧
    (classify opcodeMap ir = .aluUndefined ↔
      ir.getLsbD 5 = true ∧ ir ∉ ([0xA0, 0xA1, 0xA2, 0xA3, 0xA7] : List Byte)) ∧
    (classify opcodeMap ir = .unknown ↔
      ir.getLsbD 5 = false ∧
        ir ∉ ([0x82, 0x47, 0x45, 0x46, 0x50, 0x11, 0x54, 0x55, 0x56, 0x01] : List Byte))

/-- R53, R50 (D1 and D3, log 1): the word of each of the fifteen instructions, its opcode byte written out,
decodes to that instruction with its operand bytes in their places, whatever they are and whatever
follows. -/
def Obligations.WordsFromTheSpecDecode : Prop :=
  ∀ (a b : Byte) (rest : List Byte),
    decode (0b10100000 :: a :: b :: rest) = .ok (.add a b, rest) ∧
    decode (0b10100001 :: a :: b :: rest) = .ok (.sub a b, rest) ∧
    decode (0b10100010 :: a :: b :: rest) = .ok (.mul a b, rest) ∧
    decode (0b10100011 :: a :: b :: rest) = .ok (.div a b, rest) ∧
    decode (0b10100111 :: a :: b :: rest) = .ok (.cmp a b, rest) ∧
    decode (0b10000010 :: a :: b :: rest) = .ok (.ldi a b, rest) ∧
    decode (0b01000111 :: a :: rest) = .ok (.prn a, rest) ∧
    decode (0b01000101 :: a :: rest) = .ok (.push a, rest) ∧
    decode (0b01000110 :: a :: rest) = .ok (.pop a, rest) ∧
    decode (0b01010000 :: a :: rest) = .ok (.call a, rest) ∧
    decode (0b00010001 :: rest) = .ok (.ret, rest) ∧
    decode (0b01010100 :: a :: rest) = .ok (.jmp a, rest) ∧
    decode (0b01010101 :: a :: rest) = .ok (.jeq a, rest) ∧
    decode (0b01010110 :: a :: rest) = .ok (.jne a, rest) ∧
    decode (0b00000001 :: rest) = .ok (.hlt, rest)

/-- R50, R51, R58 on this hardware's map (D2, log 1): an instruction's length is 1 plus bits 7:6 of its
opcode byte, and 1 to 3 bytes. -/
def Obligations.LengthIsReadFromTheOpcodeByte : Prop :=
  ∀ i : Instr, ∃ ir operands, encode i = ir :: operands ∧
    (encode i).length = 1 + (ir.extractLsb 7 6).toNat ∧ (encode i).length ≤ 3

/-! ### Memory -/

/-- R31, R124: the two memory primitives, and the only out-of-range addresses that can arise: 256 at opcode
fetch, operand fetch, a POP or RET whose value to be incremented is 0xFF (the loaded byte for POP R7, else
register 7) and the return address of a CALL at 254, and -1 at a PUSH or CALL with register 7 at 0. The
fetch cases rest on D9 and D13 (log 4); that the stack pointer and the return address fault at these limits
is D15 and D17, and POP R7's value D16 (log 9). -/
def Obligations.MemoryPrimitivesAndTheirRange : Prop :=
  (∀ (s : State) (a : Int), 0 ≤ a → a ≤ 255 → memRead s a = .ok (s.mem.read a.toNat)) ∧
  (∀ (s : State) (a : Int), a < 0 ∨ 255 < a → memRead s a = .error ⟨.memoryRange, a⟩) ∧
  (∀ (s : State) (a : Int) (v : Byte), 0 ≤ a → a ≤ 255 →
    ∃ t, memWrite s a v = .ok t ∧ t.mem.read a.toNat = v ∧ SameMemoryBut a.toNat s t ∧
      t = { s with mem := t.mem }) ∧
  (∀ (s : State) (a : Int) (v : Byte), a < 0 ∨ 255 < a → memWrite s a v = .error ⟨.memoryRange, a⟩) ∧
  (∀ s t : State, s.Inv opcodeMap → s.running = true → step s = .next t → t.fault.code = .memoryRange →
    (t.fault.info = 256 ∧ (s.pc.toNat = 256 ∨
      (∃ k, classify opcodeMap (s.mem.read s.pc.toNat) = .known k ∧ s.pc.toNat + k.operandCount ≥ 256) ∨
      (classify opcodeMap (s.mem.read s.pc.toNat) = .aluUndefined ∧ s.pc.toNat + 2 ≥ 256) ∨
      (∃ a, fetch s = .ok (.pop a) ∧
        (if a = 7 then s.mem.read (s.reg 7).toNat else s.reg 7) = 0xFF) ∨
      (fetch s = .ok .ret ∧ s.reg 7 = 0xFF) ∨
      (∃ a, fetch s = .ok (.call a)) ∧ s.pc.toNat = 254)) ∨
    (t.fault.info = -1 ∧ s.reg 7 = 0 ∧
      ((∃ a, fetch s = .ok (.push a)) ∨ ∃ a, fetch s = .ok (.call a))))

/-- Two canonical memories that read the same everywhere are the same data. The canonical list is the
model's representation of `mem` (log 12). -/
def Obligations.EqualReadsAreEqualMemories : Prop :=
  ∀ m₁ m₂ : Memory, m₁.wf → m₂.wf → (∀ x, m₁.read x = m₂.read x) → m₁ = m₂

/-- R32. Only PUSH and CALL write memory, one byte at the decremented stack pointer, and they do write it
when they do not fault: the byte is the same whatever memory held. Only POP and RET read data, the byte at the
stack pointer before the increment, and they do read it: two bytes there give two results. When they
fault is D14, D15 and D17 (log 9). -/
def Obligations.OnlyStackInstructionsAccessMemory : Prop :=
  (∀ (i : Instr) (s t : State), exec i s = .next t → t.mem = s.mem ∨
    ((∃ a, i = .push a ∨ i = .call a) ∧ t.reg 7 = s.reg 7 - 1 ∧
      ∃ v, t.mem = s.mem.write (t.reg 7).toNat v)) ∧
  (∀ (i : Instr) (s : State), (∃ a, i = .push a ∨ i = .call a) → execFault i s = none →
    ∃ v, ∀ m : Memory, ∃ t, exec i { s with mem := m } = .next t ∧ t.reg 7 = s.reg 7 - 1 ∧
      t.mem = m.write (t.reg 7).toNat v) ∧
  (∀ (i : Instr) (s : State) (m₁ m₂ : Memory), (∀ a, i ≠ .pop a) → i ≠ .ret →
    ∃ t₁ t₂, exec i { s with mem := m₁ } = .next t₁ ∧ exec i { s with mem := m₂ } = .next t₂ ∧
      t₂ = { t₁ with mem := t₂.mem }) ∧
  (∀ (i : Instr) (s : State) (m₁ m₂ : Memory), ((∃ a, i = .pop a) ∨ i = .ret) →
    m₁.read (s.reg 7).toNat = m₂.read (s.reg 7).toNat →
    ∃ t : State, exec i { s with mem := m₁ } = .next { t with mem := m₁ } ∧
      exec i { s with mem := m₂ } = .next { t with mem := m₂ }) ∧
  (∀ (i : Instr) (s : State) (m₁ m₂ : Memory), ((∃ a, i = .pop a) ∨ i = .ret) →
    execFault i { s with mem := m₁ } = none → execFault i { s with mem := m₂ } = none →
    m₁.read (s.reg 7).toNat ≠ m₂.read (s.reg 7).toNat →
    ∃ t₁ t₂, exec i { s with mem := m₁ } = .next t₁ ∧ exec i { s with mem := m₂ } = .next t₂ ∧
      (t₁.regs ≠ t₂.regs ∨ t₁.pc ≠ t₂.pc))

/-- R40: the byte a PUSH or a CALL stores is the first byte that every later fetch at that address gives the
decoder, for as long as the cell is left, with nothing in between. Where they store is D15 and D17, and that
PUSH R7 stores the decremented pointer is D16 (log 9). -/
def Obligations.StoreIsSeenByTheNextFetch : Prop :=
  (∀ (r : RegIndex) (s : State), s.reg 7 ≠ 0 →
    ∃ t, exec (.push (regByte r)) s = .next t ∧
      ∀ u : State, u.pc.toNat + 1 = (s.reg 7).toNat →
        u.mem.read u.pc.toNat = t.mem.read u.pc.toNat →
        ∃ rest, u.mem.window u.pc.toNat 3 = (if r = 7 then s.reg 7 - 1 else s.reg r) :: rest) ∧
  (∀ (r : RegIndex) (s : State), s.pc.toNat + 2 ≤ 255 → s.reg 7 ≠ 0 →
    ∃ t, exec (.call (regByte r)) s = .next t ∧
      ∀ u : State, u.pc.toNat + 1 = (s.reg 7).toNat →
        u.mem.read u.pc.toNat = t.mem.read u.pc.toNat →
        ∃ v rest, u.mem.window u.pc.toNat 3 = v :: rest ∧ v.toNat = s.pc.toNat + 2)

/-! ### The step -/

/-- R70: a step of a RUNNING machine is the rule's pseudocode, under any opcode map; `raise` is fault entry
(R126, log 5). -/
def Obligations.StepFollowsTheFetchPseudocode : Prop :=
  ∀ (m : OpcodeMap) (s : State), s.running = true →
    stepWith m s =
      match memRead s s.pc.toNat with
      | .error f => .next { s with running := false, fault := f }
      | .ok ir =>
        match classify m ir with
        | .unknown => .next { s with running := false, fault := ⟨.unknownInstruction, ir.toNat⟩ }
        | .aluUndefined =>
          match memRead s (s.pc.toNat + 1 : Nat) with
          | .error f => .next { s with running := false, fault := f }
          | .ok _ =>
            match memRead s (s.pc.toNat + 2 : Nat) with
            | .error f => .next { s with running := false, fault := f }
            | .ok _ => .next { s with running := false, fault := ⟨.aluUndefinedOp, ir.toNat⟩ }
        | .known k =>
          if k.operandCount = 0 then exec (k.instr 0 0) s
          else
            match memRead s (s.pc.toNat + 1 : Nat) with
            | .error f => .next { s with running := false, fault := f }
            | .ok a =>
              if k.operandCount = 1 then exec (k.instr a 0) s
              else
                match memRead s (s.pc.toNat + 2 : Nat) with
                | .error f => .next { s with running := false, fault := f }
                | .ok b => exec (k.instr a b) s

/-- When the bytes at the program counter decode to an instruction, or are an instruction's encoding, the
step of a RUNNING machine is `exec` of that instruction, and nothing around it. -/
def Obligations.StepRunsTheDecodedInstruction : Prop :=
  (∀ (m : OpcodeMap) (s : State) (i : Instr) (rest : List Byte), s.running = true →
    decodeWith m (s.mem.window s.pc.toNat 3) = .ok (i, rest) → stepWith m s = exec i s) ∧
  (∀ (i : Instr) (s : State), s.running = true → s.CodeAt (encode i) → step s = exec i s)

/-- R78, R79 (D19, log 6): a step or a run of a HALTED machine does nothing, and it has no transition. -/
def Obligations.HaltedMachineDoesNothing : Prop :=
  ∀ (m : OpcodeMap) (s : State), s.running = false →
    stepWith m s = .next s ∧ (∀ n, runFor n s = .next s) ∧ ∀ t, ¬ s.Succ t

/-- R70, R76, R78: no instruction is refused and no step is stuck: `exec` of every instruction in every state,
and every step, answers a next state. That nothing is refused is read from the spec (log 11); the second
clause includes HALTED states, which R78 gives no successor in a model, and that a step of one answers the
same state is the model's reading (D19, log 6; `State.Succ` is the relation without it). -/
def Obligations.EveryStepAnswersANextState : Prop :=
  (∀ (i : Instr) (s : State), ∃ t, exec i s = .next t) ∧ ∀ s : State, ∃ t, step s = .next t

/-- Every step keeps the invariant: memory canonical, `pc` at most 256, at most one flag set, no fault
while RUNNING, and a fault record of R120. -/
def Obligations.StepKeepsTheInvariant : Prop :=
  ∀ s t : State, s.Inv opcodeMap → step s = .next t → t.Inv opcodeMap

/-- The invariant holds after any number of steps of any program that loads. -/
def Obligations.RunsOfLoadedProgramsMeetTheInvariant : Prop :=
  ∀ (bytes : List Byte) (s : State) (n : Nat), loadProgram bytes = some s →
    ∃ t, runFor n s = .next t ∧ t.Inv opcodeMap

/-- R145, R79: once a run has reached a HALTED state it is over: every longer run ends in the same state,
and two HALTED states of runs from one state are the same. -/
def Obligations.HaltedRunsAreOver : Prop :=
  ∀ (s t : State) (n : Nat), runFor n s = .next t → t.running = false →
    (∀ k, runFor (n + k) s = .next t) ∧
    ∀ (n' : Nat) (t' : State), runFor n' s = .next t' → t'.running = false → t' = t

/-! ### Faults -/

/-- R128 points 1 to 4 (D12, log 5): which fault the fetch of a RUNNING machine reports, and that no fault of
the fetch means the decoded instruction runs. The clauses exclude each other. -/
def Obligations.FetchReportsTheFirstFault : Prop :=
  ∀ (m : OpcodeMap) (s : State), s.running = true →
    stepWith m s =
      if s.pc.toNat > 255 then .next { s with running := false, fault := ⟨.memoryRange, s.pc.toNat⟩ }
      else
        match classify m (s.mem.read s.pc.toNat) with
        | .unknown => .next { s with
            running := false, fault := ⟨.unknownInstruction, (s.mem.read s.pc.toNat).toNat⟩ }
        | .aluUndefined =>
          if s.pc.toNat + 2 > 255 then .next { s with running := false, fault := ⟨.memoryRange, 256⟩ }
          else .next { s with
            running := false, fault := ⟨.aluUndefinedOp, (s.mem.read s.pc.toNat).toNat⟩ }
        | .known k =>
          if s.pc.toNat + k.operandCount > 255 then
            .next { s with running := false, fault := ⟨.memoryRange, 256⟩ }
          else exec (k.instr (s.mem.read (s.pc.toNat + 1)) (s.mem.read (s.pc.toNat + 2))) s

/-- R128 points 5 and 6, R75, R76 (D12, D14, D15, D17, log 5, log 9): a decoded instruction reports its first
register index above 7, else its own first fault, and changes nothing else; where `execFault` names no
fault it faults in no way, and only HLT clears `running`. -/
def Obligations.InstructionReportsTheFirstFault : Prop :=
  ∀ (i : Instr) (s : State),
    (∀ f, execFault i s = some f → exec i s = .next { s with running := false, fault := f }) ∧
    (execFault i s = none → ∃ t, exec i s = .next t ∧ t.fault = s.fault ∧
      (i ≠ .hlt → t.running = s.running))

/-- R121 (D28, log 5): a RUNNING machine whose opcode byte has bit 5 clear and is no control opcode takes
UnknownInstruction, whatever bytes follow and wherever in memory it stands. -/
def Obligations.UnknownOpcodeFaults : Prop :=
  ∀ (m : OpcodeMap) (s : State), s.running = true → s.pc.toNat ≤ 255 →
    (s.mem.read s.pc.toNat).getLsbD 5 = false →
    (∀ k ∈ controlTable, m k ≠ s.mem.read s.pc.toNat) →
    stepWith m s = .next { s with
      running := false, fault := ⟨.unknownInstruction, (s.mem.read s.pc.toNat).toNat⟩ }

/-- R123: a RUNNING machine whose opcode byte has bit 5 set and is no ALU operation takes AluUndefinedOp
after both operand bytes are fetched, whatever they are; where they reach beyond memory it takes
MemoryRange(256) instead. Fault entry is R126 (log 5). -/
def Obligations.UndefinedAluOpcodeFaults : Prop :=
  ∀ (m : OpcodeMap) (s : State), s.running = true → s.pc.toNat ≤ 255 →
    (s.mem.read s.pc.toNat).getLsbD 5 = true →
    (∀ k ∈ aluTable, m k ≠ s.mem.read s.pc.toNat) →
    stepWith m s = .next { s with
      running := false
      fault :=
        if s.pc.toNat ≤ 253 then ⟨.aluUndefinedOp, (s.mem.read s.pc.toNat).toNat⟩
        else ⟨.memoryRange, 256⟩ }

/-- R122: DIV with a zero divisor register takes DivideByZero with that register's index, whatever the
dividend, and changes nothing else but `running` and the fault record (R126, log 5); a register index above
7 is reported instead, never masked (R75, R125; D14, log 9); nothing but DIV with a zero divisor register raises it. -/
def Obligations.DivideByZeroFaults : Prop :=
  (∀ (ra rb : RegIndex) (s : State), s.reg rb = 0 →
    exec (.div (regByte ra) (regByte rb)) s =
      .next { s with running := false, fault := ⟨.divideByZero, rb.val⟩ }) ∧
  (∀ (a b v : Byte) (s : State), badIndex (.div a b) = some v →
    exec (.div a b) s = .next { s with running := false, fault := ⟨.registerIndexRange, v.toNat⟩ }) ∧
  (∀ (i : Instr) (s t : State), exec i s = .next t → t.fault.code = .divideByZero →
    s.fault.code ≠ .divideByZero → ∃ a rb, i = .div a (regByte rb) ∧ s.reg rb = 0) ∧
  (∀ s t : State, s.running = true → step s = .next t → t.fault.code = .divideByZero →
    s.fault.code ≠ .divideByZero → ∃ a b, fetch s = .ok (.div a b))

/-- R126, R127, R145 (D10, log 5): a step of a RUNNING machine with no fault recorded ends in one of three
ways: it goes on, it is HLT and only `running` changes, or it takes a fault and only `running` and the
fault record change. -/
def Obligations.StepGoesOnHaltsOrFaults : Prop :=
  ∀ s t : State, s.running = true → s.fault.code = .none → step s = .next t →
    (t.running = true ∧ t.fault = s.fault) ∨
    (fetch s = .ok .hlt ∧ t = { s with running := false } ∧ t.HaltedNormally) ∨
    (t.fault.code ≠ .none ∧ t = { s with running := false, fault := t.fault } ∧ t.HaltedByFault)

/-- R18: RUNNING is the initial state; `running` becomes false by HLT or by a fault and never true again; it
alone ends the run loop; no instruction reads it. That a fault happened is read from the fault record
(R19, log 5). -/
def Obligations.RunningFlagFollowsItsRule : Prop :=
  State.reset.running = true ∧
  (∀ s t : State, step s = .next t → s.running = false → t.running = false) ∧
  (∀ s t : State, step s = .next t → s.running = true → s.fault.code = .none →
    (t.running = false ↔ fetch s = .ok .hlt ∨ t.fault.code ≠ .none)) ∧
  (∀ (n : Nat) (s t : State), s.running = true → step s = .next t → runFor (n + 1) s = runFor n t) ∧
  (∀ (n : Nat) (s : State), s.running = false → runFor n s = .next s) ∧
  (∀ (i : Instr) (s : State), ∃ t, exec i { s with running := true } = .next t ∧
    exec i { s with running := false } = .next { t with running := false })

/-- R19, R129 (D10, log 5): no instruction reads the fault record; an instruction that does not fault
leaves it; a HALTED machine keeps it in every run. -/
def Obligations.FaultRecordIsNeitherReadNorCleared : Prop :=
  (∀ (i : Instr) (s : State) (f : FaultStatus), execFault i s = none →
    ∃ t, exec i s = .next t ∧ t.fault = s.fault ∧
      exec i { s with fault := f } = .next { t with fault := f }) ∧
  (∀ (i : Instr) (s : State) (f : FaultStatus), execFault i s ≠ none →
    exec i { s with fault := f } = exec i s) ∧
  (∀ (n : Nat) (s t : State), s.running = false → runFor n s = .next t → t.fault = s.fault)

/-! ### Flags -/

/-- R17: only CMP writes `fl`, all of it, leaving exactly one flag; a fault leaves `fl`; only JEQ and JNE read
it, and of it only E. Nothing here rests on where the three bits stand (D7). -/
def Obligations.OnlyCompareWritesAndJumpsReadFlags : Prop :=
  (∀ (i : Instr) (s t : State), exec i s = .next t → (∀ a b, i ≠ .cmp a b) → t.fl = s.fl) ∧
  (∀ (ra rb : RegIndex) (s : State), ∃ t, exec (.cmp (regByte ra) (regByte rb)) s = .next t ∧
    (t.fl = flagL ∨ t.fl = flagG ∨ t.fl = flagE) ∧
    ∀ v, exec (.cmp (regByte ra) (regByte rb)) { s with fl := v } = .next t) ∧
  (∀ s t : State, step s = .next t → t.fault ≠ s.fault → t.fl = s.fl) ∧
  (∀ (i : Instr) (s t : State) (v : Byte), exec i s = .next t →
    (∀ a b, i ≠ .cmp a b) → (∀ a, i ≠ .jeq a) → (∀ a, i ≠ .jne a) →
    exec i { s with fl := v } = .next { t with fl := v }) ∧
  (∀ (i : Instr) (s t : State) (v : Byte), ((∃ a, i = .jeq a) ∨ ∃ a, i = .jne a) →
    equalFlag v = equalFlag s.fl → exec i s = .next t →
    exec i { s with fl := v } = .next { t with fl := v })

/-! ### Results: every instruction completes, with the whole state after it -/

/-- R81, R86 (wrapping is D4, log 8). -/
def Obligations.AddCompletes : Prop :=
  ∀ (ra rb : RegIndex) (s : State), ∃ t, exec (.add (regByte ra) (regByte rb)) s = .next t ∧
    (t.reg ra).toNat = ((s.reg ra).toNat + (s.reg rb).toNat) % 256 ∧ t.pc = s.pc + 3 ∧
    SameRegsBut [ra] s t ∧ t.fl = s.fl ∧ t.running = s.running ∧ t.fault = s.fault ∧
    SameMemory s t ∧ t.out = s.out

/-- R82, R86 (wrapping is D4, log 8). -/
def Obligations.SubCompletes : Prop :=
  ∀ (ra rb : RegIndex) (s : State), ∃ t, exec (.sub (regByte ra) (regByte rb)) s = .next t ∧
    ((t.reg ra).toNat : Int) = ((s.reg ra).toNat - (s.reg rb).toNat : Int) % 256 ∧ t.pc = s.pc + 3 ∧
    SameRegsBut [ra] s t ∧ t.fl = s.fl ∧ t.running = s.running ∧ t.fault = s.fault ∧
    SameMemory s t ∧ t.out = s.out

/-- R83, R86 (wrapping is D4, log 8). -/
def Obligations.MulCompletes : Prop :=
  ∀ (ra rb : RegIndex) (s : State), ∃ t, exec (.mul (regByte ra) (regByte rb)) s = .next t ∧
    (t.reg ra).toNat = ((s.reg ra).toNat * (s.reg rb).toNat) % 256 ∧ t.pc = s.pc + 3 ∧
    SameRegsBut [ra] s t ∧ t.fl = s.fl ∧ t.running = s.running ∧ t.fault = s.fault ∧
    SameMemory s t ∧ t.out = s.out

/-- R84, R86 (the unsigned floor quotient is D5, log 8): the quotient `q` with `q * divisor ≤ dividend <
(q + 1) * divisor`. -/
def Obligations.DivCompletes : Prop :=
  ∀ (ra rb : RegIndex) (s : State), s.reg rb ≠ 0 →
    ∃ t, exec (.div (regByte ra) (regByte rb)) s = .next t ∧
    (t.reg ra).toNat * (s.reg rb).toNat ≤ (s.reg ra).toNat ∧
    (s.reg ra).toNat < ((t.reg ra).toNat + 1) * (s.reg rb).toNat ∧ t.pc = s.pc + 3 ∧
    SameRegsBut [ra] s t ∧ t.fl = s.fl ∧ t.running = s.running ∧ t.fault = s.fault ∧
    SameMemory s t ∧ t.out = s.out

/-- R85 (unsigned is D6, the bit positions D7, log 3). -/
def Obligations.CmpCompletes : Prop :=
  ∀ (ra rb : RegIndex) (s : State), ∃ t, exec (.cmp (regByte ra) (regByte rb)) s = .next t ∧
    ((s.reg ra).toNat < (s.reg rb).toNat → t.fl = 0b100) ∧
    ((s.reg rb).toNat < (s.reg ra).toNat → t.fl = 0b010) ∧
    ((s.reg ra).toNat = (s.reg rb).toNat → t.fl = 0b001) ∧ t.pc = s.pc + 3 ∧
    SameRegsBut [] s t ∧ t.running = s.running ∧ t.fault = s.fault ∧ SameMemory s t ∧ t.out = s.out

/-- R90: any literal byte, and register 7 like any other. -/
def Obligations.LdiCompletes : Prop :=
  ∀ (ra : RegIndex) (literal : Byte) (s : State), ∃ t, exec (.ldi (regByte ra) literal) s = .next t ∧
    t.reg ra = literal ∧ t.pc = s.pc + 3 ∧
    SameRegsBut [ra] s t ∧ t.fl = s.fl ∧ t.running = s.running ∧ t.fault = s.fault ∧
    SameMemory s t ∧ t.out = s.out

/-- R91 (the log holds bytes: D21, log 8). -/
def Obligations.PrnCompletes : Prop :=
  ∀ (ra : RegIndex) (s : State), ∃ t, exec (.prn (regByte ra)) s = .next t ∧
    t.out = s.out ++ [s.reg ra] ∧ t.pc = s.pc + 2 ∧
    SameRegsBut [] s t ∧ t.fl = s.fl ∧ t.running = s.running ∧ t.fault = s.fault ∧ SameMemory s t

/-- R95, R42 (R7 read after the decrement is D16, the limit at 0 is D15, log 9). -/
def Obligations.PushCompletes : Prop :=
  ∀ (ra : RegIndex) (s : State), s.reg 7 ≠ 0 → ∃ t, exec (.push (regByte ra)) s = .next t ∧
    (t.reg 7).toNat = (s.reg 7).toNat - 1 ∧
    t.mem.read ((s.reg 7).toNat - 1) = (if ra = 7 then t.reg 7 else s.reg ra) ∧
    SameMemoryBut ((s.reg 7).toNat - 1) s t ∧ t.pc = s.pc + 2 ∧
    SameRegsBut [7] s t ∧ t.fl = s.fl ∧ t.running = s.running ∧ t.fault = s.fault ∧ t.out = s.out

/-- R96, R42 (POP R7 increments the loaded value: D16; the limit at 0xFF is D15, log 9). -/
def Obligations.PopCompletes : Prop :=
  (∀ (ra : RegIndex) (s : State), ra ≠ 7 → s.reg 7 ≠ 0xFF →
    ∃ t, exec (.pop (regByte ra)) s = .next t ∧
    t.reg ra = s.mem.read (s.reg 7).toNat ∧ (t.reg 7).toNat = (s.reg 7).toNat + 1 ∧ t.pc = s.pc + 2 ∧
    SameRegsBut [ra, 7] s t ∧ t.fl = s.fl ∧ t.running = s.running ∧ t.fault = s.fault ∧
    SameMemory s t ∧ t.out = s.out) ∧
  (∀ s : State, s.mem.read (s.reg 7).toNat ≠ 0xFF → ∃ t, exec (.pop (regByte 7)) s = .next t ∧
    (t.reg 7).toNat = (s.mem.read (s.reg 7).toNat).toNat + 1 ∧ t.pc = s.pc + 2 ∧
    SameRegsBut [7] s t ∧ t.fl = s.fl ∧ t.running = s.running ∧ t.fault = s.fault ∧
    SameMemory s t ∧ t.out = s.out)

/-- R100, C1 (R7 read after the decrement is D16, the limits are D15 and D17, log 9). -/
def Obligations.CallCompletes : Prop :=
  ∀ (ra : RegIndex) (s : State), s.pc.toNat + 2 ≤ 255 → s.reg 7 ≠ 0 →
    ∃ t, exec (.call (regByte ra)) s = .next t ∧
    (t.reg 7).toNat = (s.reg 7).toNat - 1 ∧
    (t.mem.read ((s.reg 7).toNat - 1)).toNat = s.pc.toNat + 2 ∧
    SameMemoryBut ((s.reg 7).toNat - 1) s t ∧
    t.pc.toNat = (if ra = 7 then t.reg 7 else s.reg ra).toNat ∧
    SameRegsBut [7] s t ∧ t.fl = s.fl ∧ t.running = s.running ∧ t.fault = s.fault ∧ t.out = s.out

/-- R101 (the limit at 0xFF is D15, log 9). -/
def Obligations.RetCompletes : Prop :=
  ∀ s : State, s.reg 7 ≠ 0xFF → ∃ t, exec .ret s = .next t ∧
    t.pc.toNat = (s.mem.read (s.reg 7).toNat).toNat ∧ (t.reg 7).toNat = (s.reg 7).toNat + 1 ∧
    SameRegsBut [7] s t ∧ t.fl = s.fl ∧ t.running = s.running ∧ t.fault = s.fault ∧
    SameMemory s t ∧ t.out = s.out

/-- R102. -/
def Obligations.JmpCompletes : Prop :=
  ∀ (ra : RegIndex) (s : State), ∃ t, exec (.jmp (regByte ra)) s = .next t ∧
    t.pc.toNat = (s.reg ra).toNat ∧
    SameRegsBut [] s t ∧ t.fl = s.fl ∧ t.running = s.running ∧ t.fault = s.fault ∧
    SameMemory s t ∧ t.out = s.out

/-- R103, R104: JEQ and JNE complete whether or not they are taken, and exactly one of them is taken. -/
def Obligations.ConditionalJumpsComplete : Prop :=
  ∀ (ra : RegIndex) (s : State), ∃ t u,
    exec (.jeq (regByte ra)) s = .next t ∧ exec (.jne (regByte ra)) s = .next u ∧
    (s.fl.getLsbD 0 = true → t.pc = (s.reg ra).setWidth 9 ∧ u.pc = s.pc + 2) ∧
    (s.fl.getLsbD 0 = false → t.pc = s.pc + 2 ∧ u.pc = (s.reg ra).setWidth 9) ∧
    t = { s with pc := t.pc } ∧ u = { s with pc := u.pc }

/-- R110 (`pc` unchanged is D18, log 7). -/
def Obligations.HltCompletes : Prop :=
  ∀ s : State, ∃ t, exec .hlt s = .next t ∧ t.running = false ∧ t.pc = s.pc ∧
    SameRegsBut [] s t ∧ t.fl = s.fl ∧ t.fault = s.fault ∧ SameMemory s t ∧ t.out = s.out

/-! ### Frames -/

/-- R13, R17, R80: whatever its operand bytes, ADD, SUB, MUL, DIV and LDI leave every register but the one
their first operand names, `fl`, memory and the output log, and either fault or leave the status. -/
def Obligations.FrameOfRegisterWriters : Prop :=
  ∀ (i : Instr) (a b : Byte) (s t : State),
    (i = .add a b ∨ i = .sub a b ∨ i = .mul a b ∨ i = .div a b ∨ i = .ldi a b) → exec i s = .next t →
    SameRegsBut (namedReg a) s t ∧ t.fl = s.fl ∧ SameMemory s t ∧ t.out = s.out ∧ SameStatusOrFault s t

/-- R13, R17, R21: CMP, PRN, JMP, JEQ, JNE and HLT leave every register and all memory; all but CMP leave
`fl`, all but PRN the output log, and all but HLT either fault or leave the status; HLT leaves the fault
record. -/
def Obligations.FrameOfInstructionsThatWriteNoRegister : Prop :=
  ∀ (i : Instr) (a b : Byte) (s t : State),
    (i = .cmp a b ∨ i = .prn a ∨ i = .jmp a ∨ i = .jeq a ∨ i = .jne a ∨ i = .hlt) → exec i s = .next t →
    SameRegsBut [] s t ∧ SameMemory s t ∧ (i ≠ .cmp a b → t.fl = s.fl) ∧ (i ≠ .prn a → t.out = s.out) ∧
    (i ≠ .hlt → SameStatusOrFault s t) ∧ (i = .hlt → t.fault = s.fault)

/-- R13, R32, R42: PUSH and CALL leave every register but the stack pointer, `fl` and the output log, and
every address but the one the stack pointer moves down to; where it cannot move, all of memory. -/
def Obligations.FrameOfPushAndCall : Prop :=
  ∀ (i : Instr) (a : Byte) (s t : State), (i = .push a ∨ i = .call a) → exec i s = .next t →
    SameRegsBut [7] s t ∧ t.fl = s.fl ∧ t.out = s.out ∧ SameStatusOrFault s t ∧
    (∀ p, stackDown s.sp = .ok p → SameMemoryBut p.toNat s t) ∧
    (∀ f, stackDown s.sp = .error f → SameMemory s t)

/-- R13, R32, R42: POP leaves every register but the one it names and the stack pointer, RET every register
but the stack pointer; both leave `fl`, memory and the output log. -/
def Obligations.FrameOfPopAndRet : Prop :=
  ∀ (i : Instr) (a : Byte) (s t : State), (i = .pop a ∨ i = .ret) → exec i s = .next t →
    SameRegsBut (regsWritten i) s t ∧ t.fl = s.fl ∧ SameMemory s t ∧ t.out = s.out ∧
    SameStatusOrFault s t

/-! ### What instructions read -/

/-- R13: an instruction writes only the registers the table lists, and its effect does not depend on any
register that the table does not list as read. -/
def Obligations.RegistersReadAndWrittenByTheTable : Prop :=
  (∀ (i : Instr) (s t : State), exec i s = .next t → SameRegsBut (regsWritten i) s t) ∧
  (∀ (i : Instr) (s : State) (r : RegIndex) (v : Byte), r ∉ regsRead i s →
    ∃ t u, exec i s = .next t ∧ exec i (s.setReg r v) = .next u ∧
      u.pc = t.pc ∧ u.fl = t.fl ∧ u.running = t.running ∧ u.fault = t.fault ∧ u.mem = t.mem ∧
      u.out = t.out ∧ SameRegsBut [r] t u ∧
      (u.reg r = t.reg r ∨ u.reg r = v ∧ t.reg r = s.reg r))

/-- R14, R15 (D9, log 4): the program counter reaches no register, flag, memory cell, output or fault of
any instruction but CALL, which stores `pc + 2`. -/
def Obligations.OnlyCallObservesThePc : Prop :=
  ∀ (i : Instr) (s : State) (p : PcWord), (∀ a, i ≠ .call a) →
    ∃ t u, exec i s = .next t ∧ exec i { s with pc := p } = .next u ∧ u = { t with pc := u.pc }

/-- R21, R91 (D21, log 8): the output log only grows, one value for a PRN and none otherwise, and no
instruction reads it. -/
def Obligations.OnlyPrintWritesTheOutputLog : Prop :=
  (∀ (i : Instr) (s t : State), exec i s = .next t →
    t.out = s.out ∨ ∃ r, i = .prn (regByte r) ∧ t.out = s.out ++ [s.reg r]) ∧
  (∀ s t : State, step s = .next t → ∃ new, t.out = s.out ++ new ∧ new.length ≤ 1) ∧
  (∀ (i : Instr) (s t : State) (o : List Byte), exec i s = .next t →
    ∃ new, t.out = s.out ++ new ∧ exec i { s with out := o } = .next { t with out := o ++ new })

/-! ### Laws of pairs of instructions -/

/-- R97: PUSH then POP of one register restores it and the stack pointer; PUSH Rs then POP Rd copies; and so
it is when other steps come between that leave register 7 and the pushed byte. -/
def Obligations.PushThenPopRestores : Prop :=
  ∀ (rs rd : RegIndex) (s : State), rs ≠ 7 → rd ≠ 7 → s.reg 7 ≠ 0 →
    ∃ t, exec (.push (regByte rs)) s = .next t ∧
      ∀ t' : State, t'.reg 7 = t.reg 7 →
        t'.mem.read ((s.reg 7).toNat - 1) = t.mem.read ((s.reg 7).toNat - 1) →
        ∃ u, exec (.pop (regByte rd)) t' = .next u ∧ u.reg rd = s.reg rs ∧ u.reg 7 = s.reg 7 ∧
          u.mem.read ((s.reg 7).toNat - 1) = s.reg rs ∧ SameRegsBut [rd, 7] t' u ∧
          (t' = t → u.pc = s.pc + 4 ∧ (rs = rd → ∀ r, u.reg r = s.reg r))

/-- R106, C1: RET resumes at the byte after the CALL, and the stack pointer is as it was, when register 7
and the return address's cell are as the CALL left them, whatever else changed. -/
def Obligations.ReturnResumesAfterTheCall : Prop :=
  ∀ (ra : RegIndex) (s : State), s.pc.toNat + 2 ≤ 255 → s.reg 7 ≠ 0 →
    ∃ t, exec (.call (regByte ra)) s = .next t ∧
      ∀ t' : State, t'.reg 7 = t.reg 7 →
        t'.mem.read ((s.reg 7).toNat - 1) = t.mem.read ((s.reg 7).toNat - 1) →
        ∃ u, exec .ret t' = .next u ∧ u.pc = s.pc + 2 ∧ u.reg 7 = s.reg 7 ∧
          SameRegsBut [7] t' u ∧ u.fl = t'.fl

/-- Source property T5 (95_test_vectors.md), R85, R103, R104: after CMP a b, for as long as `fl` is left, JEQ
jumps exactly when the two registers were equal and JNE exactly when they were not. -/
def Obligations.CompareThenConditionalJump : Prop :=
  ∀ (ra rb rc : RegIndex) (s : State), ∃ t, exec (.cmp (regByte ra) (regByte rb)) s = .next t ∧
    ∀ t' : State, t'.fl = t.fl →
      exec (.jeq (regByte rc)) t' = .next { t' with
        pc := if s.reg ra = s.reg rb then (t'.reg rc).setWidth 9 else t'.pc + 2 } ∧
      exec (.jne (regByte rc)) t' = .next { t' with
        pc := if s.reg ra = s.reg rb then t'.pc + 2 else (t'.reg rc).setWidth 9 }

/-- Source property T2 (95_test_vectors.md), R90, R91: in a RUNNING machine with LDI R,v and then PRN R at
the program counter, two steps print exactly `v`, change register R to `v` and go on five bytes later. -/
def Obligations.LoadThenPrintEmitsTheLiteral : Prop :=
  ∀ (r : RegIndex) (v : Byte) (s : State), s.running = true →
    s.CodeAt (encode (.ldi (regByte r) v) ++ encode (.prn (regByte r))) →
    ∃ t, runFor 2 s = .next t ∧ t.out = s.out ++ [v] ∧ t.reg r = v ∧ t.pc = s.pc + 5 ∧
      SameRegsBut [r] s t ∧ t.fl = s.fl ∧ t.running = true ∧ t.fault = s.fault ∧ SameMemory s t
end

