-- ==== Sys2Proof/Laws/Decode.lean ====
section
/-!
SUPPORT. The small lemmas of the decoder and the encoder: a legal opcode map is one to one, a mapped
opcode byte is classified as its instruction, and an instruction is rebuilt from its name and operands.
-/

namespace Sys2Proof

/-- The two tables list every instruction. -/
theorem mem_tables (k : Mnemonic) : k ∈ aluTable ++ controlTable := by
  cases k <;> decide

/-- A legal map gives different instructions different bytes (R61 (a)). -/
theorem OpcodeMap.Legal.injective {m : OpcodeMap} (h : m.Legal) {j k : Mnemonic} (e : m j = m k) :
    j = k :=
  List.inj_on_of_nodup_map h.1 (mem_tables j) (mem_tables k) e

/-- Looking an opcode byte up in a table that has its instruction finds that instruction. -/
theorem OpcodeMap.Legal.find {m : OpcodeMap} (h : m.Legal) {l : List Mnemonic} {k : Mnemonic}
    (hk : k ∈ l) : (l.find? fun j => m j == m k) = some k := by
  induction l with
  | nil => simp at hk
  | cons j l ih =>
    by_cases e : m j = m k
    · simp [h.injective e]
    · rw [List.find?_cons_of_neg (by simpa using e)]
      rcases List.mem_cons.mp hk with rfl | hk
      · exact absurd rfl e
      · exact ih hk

/-- A legal map's opcode byte is classified as its instruction (R54). -/
theorem classify_map {m : OpcodeMap} (h : m.Legal) (k : Mnemonic) : classify m (m k) = .known k := by
  have hk := mem_tables k
  rcases List.mem_append.mp hk with hk | hk
  · rw [classify, h.2.1 k hk, if_pos rfl, h.find hk]
  · rw [classify, h.2.2.1 k hk, if_neg Bool.false_ne_true, h.find hk]

/-- A byte classified as an instruction is its opcode byte. -/
theorem classify_known {m : OpcodeMap} {ir : Byte} {k : Mnemonic} (h : classify m ir = .known k) :
    m k = ir := by
  unfold classify at h
  split at h <;> split at h <;> simp only [OpClass.known.injEq, reduceCtorEq] at h
  · rename_i e
    subst h
    simpa using List.find?_some e
  · rename_i e
    subst h
    simpa using List.find?_some e

/-- The number of operand bytes is the number its name gives (R58). -/
@[simp] theorem Instr.length_operands (i : Instr) : i.operands.length = i.mnemonic.operandCount := by
  cases i <;> rfl

/-- Rebuilding an instruction keeps its name. -/
@[simp] theorem Mnemonic.mnemonic_instr (k : Mnemonic) (a b : Byte) : (k.instr a b).mnemonic = k := by
  cases k <;> rfl

end Sys2Proof
end

