-- ==== Sys2Proof/Laws/Memory.lean ====
section
/-!
SUPPORT. The laws of memory: a read after a write to the same address gives the byte written, a write
leaves every other address alone, and every memory operation keeps the canonical form.
-/

namespace Sys2Proof.Machine

@[simp] theorem Memory.read_nil (k : Nat) : Memory.read [] k = Memory.unlisted := rfl

@[simp] theorem Memory.read_cons (c : Host.Cell) (m : Memory) (k : Nat) :
    Memory.read (c :: m) k = if c.1 = k then c.2 else Memory.read m k := rfl

theorem Memory.erase_cons (c : Host.Cell) (m : Memory) (k : Nat) :
    Memory.erase (c :: m) k = if c.1 = k then Memory.erase m k else c :: Memory.erase m k := by
  by_cases h : c.1 = k <;> simp [Memory.erase, h]

theorem Memory.read_erase_self (m : Memory) (k : Nat) :
    Memory.read (Memory.erase m k) k = Memory.unlisted := by
  induction m with
  | nil => rfl
  | cons c m ih =>
    rw [Memory.erase_cons]
    split
    · exact ih
    · simp [*]

theorem Memory.read_erase_ne (m : Memory) {k j : Nat} (h : j ≠ k) :
    Memory.read (Memory.erase m k) j = Memory.read m j := by
  induction m with
  | nil => rfl
  | cons c m ih =>
    rw [Memory.erase_cons]
    split
    · rename_i hc
      have : c.1 ≠ j := hc ▸ Ne.symm h
      simp [ih, this]
    · simp [ih]

theorem Memory.read_insert_ne (m : Memory) {k j : Nat} (v : Byte) (h : j ≠ k) :
    (m.insert k v).read j = m.read j := by
  induction m with
  | nil => simp [Memory.insert, Ne.symm h]
  | cons c m ih =>
    simp only [Memory.insert]
    split
    · simp [Ne.symm h]
    · simp [ih]

/-- An inserted cell is read back where no earlier cell has its address. -/
theorem Memory.read_insert_self (m : Memory) (k : Nat) (v : Byte) (h : ∀ c ∈ m, c.1 ≠ k) :
    (m.insert k v).read k = v := by
  induction m with
  | nil => simp [Memory.insert]
  | cons c m ih =>
    simp only [Memory.insert]
    split
    · simp
    · simp [h c (by simp), ih fun d hd => h d (by simp [hd])]

theorem Memory.mem_erase {m : Memory} {k : Nat} {c : Host.Cell} :
    c ∈ m.erase k ↔ c ∈ m ∧ c.1 ≠ k := by
  simp [Memory.erase]

/-- A read after a write to the same address (R31). -/
@[simp] theorem Memory.read_write_self (m : Memory) (k : Nat) (v : Byte) : (m.write k v).read k = v := by
  unfold Memory.write
  split
  · rename_i h
    rw [Memory.read_erase_self, h]
  · exact Memory.read_insert_self _ _ _ fun c hc => (Memory.mem_erase.mp hc).2

/-- A write changes no other address (R31). -/
@[simp] theorem Memory.read_write_ne (m : Memory) {k j : Nat} (v : Byte) (h : j ≠ k) :
    (m.write k v).read j = m.read j := by
  unfold Memory.write
  split
  · exact Memory.read_erase_ne m h
  · rw [Memory.read_insert_ne _ v h, Memory.read_erase_ne m h]

theorem Memory.read_write (m : Memory) (k j : Nat) (v : Byte) :
    (m.write k v).read j = if j = k then v else m.read j := by
  split
  · subst j; simp
  · simp [*]

theorem Memory.mem_insert {m : Memory} {k : Nat} {v : Byte} {c : Host.Cell} :
    c ∈ m.insert k v ↔ c = (k, v) ∨ c ∈ m := by
  induction m with
  | nil => simp [Memory.insert]
  | cons d m ih =>
    simp only [Memory.insert]
    split
    · simp
    · simp only [List.mem_cons, ih]; tauto

theorem Memory.pairwise_insert {m : Memory} {k : Nat} (v : Byte)
    (h : m.Pairwise fun c d => c.1 < d.1) (hk : ∀ c ∈ m, c.1 ≠ k) :
    (m.insert k v).Pairwise fun c d => c.1 < d.1 := by
  induction m with
  | nil => simp [Memory.insert]
  | cons d m ih =>
    have hd := List.pairwise_cons.mp h
    simp only [Memory.insert]
    split
    · rename_i hlt
      refine List.pairwise_cons.mpr ⟨fun c hc => ?_, h⟩
      rcases List.mem_cons.mp hc with rfl | hc
      · exact hlt
      · exact hlt.trans (hd.1 c hc)
    · rename_i hlt
      have hne := hk d (by simp)
      refine List.pairwise_cons.mpr ⟨fun c hc => ?_, ih hd.2 fun c hc => hk c (by simp [hc])⟩
      rcases Memory.mem_insert.mp hc with rfl | hc
      · show d.1 < k
        omega
      · exact hd.1 c hc

/-- Erasing keeps the canonical form. -/
theorem Memory.erase_wf {m : Memory} (h : m.wf) (k : Nat) : (m.erase k).wf :=
  ⟨h.1.filter _, fun c hc => h.2 c (Memory.mem_erase.mp hc).1⟩

/-- A write to an address of memory keeps the canonical form. -/
theorem Memory.write_wf {m : Memory} (h : m.wf) {k : Nat} (hk : k < Config.memSize) (v : Byte) :
    (m.write k v).wf := by
  unfold Memory.write
  split
  · exact Memory.erase_wf h k
  · rename_i hv
    refine ⟨Memory.pairwise_insert v (Memory.erase_wf h k).1 fun c hc => (Memory.mem_erase.mp hc).2,
      fun c hc => ?_⟩
    rcases Memory.mem_insert.mp hc with rfl | hc
    · exact ⟨hk, hv⟩
    · exact (Memory.erase_wf h k).2 c hc

/-- Placing bytes keeps the canonical form. -/
theorem Memory.place_wf {m : Memory} (h : m.wf) (k : Nat) (bs : List Byte) : (m.place k bs).wf := by
  induction bs generalizing m k with
  | nil => exact h
  | cons b bs ih =>
    simp only [Memory.place]
    split
    · rename_i hk
      exact ih (Memory.write_wf h hk b) _
    · exact h

/-- Memory with nothing listed is canonical, which is memory at reset. -/
theorem Memory.wf_nil : Memory.wf [] := by
  simp [Memory.wf]

/-- The reset state's memory is canonical. -/
theorem State.reset_mem_wf : State.reset.mem.wf := Memory.wf_nil

end Sys2Proof.Machine
end

