-- ==== Sys2Proof/Laws/State.lean ====
section
/-!
SUPPORT. What each update of the state does to each field, so that no proof unfolds a record update. All
are true by unfolding and all are simp lemmas.
-/

namespace Sys2Proof.Machine

@[simp] theorem State.setReg_pc (s : State) (r : RegIndex) (v : Byte) : (s.setReg r v).pc = s.pc := rfl
@[simp] theorem State.setReg_fl (s : State) (r : RegIndex) (v : Byte) : (s.setReg r v).fl = s.fl := rfl
@[simp] theorem State.setReg_running (s : State) (r : RegIndex) (v : Byte) : (s.setReg r v).running = s.running := rfl
@[simp] theorem State.setReg_fault (s : State) (r : RegIndex) (v : Byte) : (s.setReg r v).fault = s.fault := rfl
@[simp] theorem State.setReg_mem (s : State) (r : RegIndex) (v : Byte) : (s.setReg r v).mem = s.mem := rfl
@[simp] theorem State.setReg_out (s : State) (r : RegIndex) (v : Byte) : (s.setReg r v).out = s.out := rfl

@[simp] theorem State.setPc_regs (s : State) (t : Byte) : (s.setPc t).regs = s.regs := rfl
@[simp] theorem State.setPc_pc (s : State) (t : Byte) : (s.setPc t).pc = t.setWidth 9 := rfl
@[simp] theorem State.setPc_fl (s : State) (t : Byte) : (s.setPc t).fl = s.fl := rfl
@[simp] theorem State.setPc_running (s : State) (t : Byte) : (s.setPc t).running = s.running := rfl
@[simp] theorem State.setPc_fault (s : State) (t : Byte) : (s.setPc t).fault = s.fault := rfl
@[simp] theorem State.setPc_mem (s : State) (t : Byte) : (s.setPc t).mem = s.mem := rfl
@[simp] theorem State.setPc_out (s : State) (t : Byte) : (s.setPc t).out = s.out := rfl
@[simp] theorem State.reg_setPc (s : State) (t : Byte) (q : RegIndex) : (s.setPc t).reg q = s.reg q := rfl

@[simp] theorem State.advance_regs (s : State) (w : Nat) : (s.advance w).regs = s.regs := rfl
@[simp] theorem State.advance_pc (s : State) (w : Nat) : (s.advance w).pc = s.pc + BitVec.ofNat 9 w := rfl
@[simp] theorem State.advance_fl (s : State) (w : Nat) : (s.advance w).fl = s.fl := rfl
@[simp] theorem State.advance_running (s : State) (w : Nat) : (s.advance w).running = s.running := rfl
@[simp] theorem State.advance_fault (s : State) (w : Nat) : (s.advance w).fault = s.fault := rfl
@[simp] theorem State.advance_mem (s : State) (w : Nat) : (s.advance w).mem = s.mem := rfl
@[simp] theorem State.advance_out (s : State) (w : Nat) : (s.advance w).out = s.out := rfl
@[simp] theorem State.reg_advance (s : State) (w : Nat) (q : RegIndex) : (s.advance w).reg q = s.reg q := rfl

@[simp] theorem State.setFl_regs (s : State) (v : Byte) : (s.setFl v).regs = s.regs := rfl
@[simp] theorem State.setFl_pc (s : State) (v : Byte) : (s.setFl v).pc = s.pc := rfl
@[simp] theorem State.setFl_fl (s : State) (v : Byte) : (s.setFl v).fl = v := rfl
@[simp] theorem State.setFl_running (s : State) (v : Byte) : (s.setFl v).running = s.running := rfl
@[simp] theorem State.setFl_fault (s : State) (v : Byte) : (s.setFl v).fault = s.fault := rfl
@[simp] theorem State.setFl_mem (s : State) (v : Byte) : (s.setFl v).mem = s.mem := rfl
@[simp] theorem State.setFl_out (s : State) (v : Byte) : (s.setFl v).out = s.out := rfl
@[simp] theorem State.reg_setFl (s : State) (v : Byte) (q : RegIndex) : (s.setFl v).reg q = s.reg q := rfl

@[simp] theorem State.emit_regs (s : State) (v : Byte) : (s.emit v).regs = s.regs := rfl
@[simp] theorem State.emit_pc (s : State) (v : Byte) : (s.emit v).pc = s.pc := rfl
@[simp] theorem State.emit_fl (s : State) (v : Byte) : (s.emit v).fl = s.fl := rfl
@[simp] theorem State.emit_running (s : State) (v : Byte) : (s.emit v).running = s.running := rfl
@[simp] theorem State.emit_fault (s : State) (v : Byte) : (s.emit v).fault = s.fault := rfl
@[simp] theorem State.emit_mem (s : State) (v : Byte) : (s.emit v).mem = s.mem := rfl
@[simp] theorem State.emit_out (s : State) (v : Byte) : (s.emit v).out = s.out ++ [v] := rfl
@[simp] theorem State.reg_emit (s : State) (v : Byte) (q : RegIndex) : (s.emit v).reg q = s.reg q := rfl

@[simp] theorem State.halt_regs (s : State) : s.halt.regs = s.regs := rfl
@[simp] theorem State.halt_pc (s : State) : s.halt.pc = s.pc := rfl
@[simp] theorem State.halt_fl (s : State) : s.halt.fl = s.fl := rfl
@[simp] theorem State.halt_running (s : State) : s.halt.running = false := rfl
@[simp] theorem State.halt_fault (s : State) : s.halt.fault = s.fault := rfl
@[simp] theorem State.halt_mem (s : State) : s.halt.mem = s.mem := rfl
@[simp] theorem State.halt_out (s : State) : s.halt.out = s.out := rfl
@[simp] theorem State.reg_halt (s : State) (q : RegIndex) : s.halt.reg q = s.reg q := rfl

@[simp] theorem State.takeFault_regs (s : State) (f : FaultStatus) : (s.takeFault f).regs = s.regs := rfl
@[simp] theorem State.takeFault_pc (s : State) (f : FaultStatus) : (s.takeFault f).pc = s.pc := rfl
@[simp] theorem State.takeFault_fl (s : State) (f : FaultStatus) : (s.takeFault f).fl = s.fl := rfl
@[simp] theorem State.takeFault_running (s : State) (f : FaultStatus) : (s.takeFault f).running = false := rfl
@[simp] theorem State.takeFault_fault (s : State) (f : FaultStatus) : (s.takeFault f).fault = f := rfl
@[simp] theorem State.takeFault_mem (s : State) (f : FaultStatus) : (s.takeFault f).mem = s.mem := rfl
@[simp] theorem State.takeFault_out (s : State) (f : FaultStatus) : (s.takeFault f).out = s.out := rfl
@[simp] theorem State.reg_takeFault (s : State) (f : FaultStatus) (q : RegIndex) : (s.takeFault f).reg q = s.reg q := rfl

@[simp] theorem State.setMem_regs (s : State) (m : Memory) : (s.setMem m).regs = s.regs := rfl
@[simp] theorem State.setMem_pc (s : State) (m : Memory) : (s.setMem m).pc = s.pc := rfl
@[simp] theorem State.setMem_fl (s : State) (m : Memory) : (s.setMem m).fl = s.fl := rfl
@[simp] theorem State.setMem_running (s : State) (m : Memory) : (s.setMem m).running = s.running := rfl
@[simp] theorem State.setMem_fault (s : State) (m : Memory) : (s.setMem m).fault = s.fault := rfl
@[simp] theorem State.setMem_mem (s : State) (m : Memory) : (s.setMem m).mem = m := rfl
@[simp] theorem State.setMem_out (s : State) (m : Memory) : (s.setMem m).out = s.out := rfl
@[simp] theorem State.reg_setMem (s : State) (m : Memory) (q : RegIndex) : (s.setMem m).reg q = s.reg q := rfl

/-- Reading the register just written. -/
@[simp] theorem State.reg_setReg_self (s : State) (r : RegIndex) (v : Byte) :
    (s.setReg r v).reg r = v := by
  simp [State.reg, State.setReg]

/-- Reading another register. -/
@[simp] theorem State.reg_setReg_ne (s : State) {r q : RegIndex} (v : Byte) (h : q ≠ r) :
    (s.setReg r v).reg q = s.reg q := by
  have h' : r.val ≠ q.val := fun e => h (Fin.ext e.symm)
  simp [State.reg, State.setReg, Vector.getElem_set_ne, h']

theorem State.reg_setReg (s : State) (r q : RegIndex) (v : Byte) :
    (s.setReg r v).reg q = if q = r then v else s.reg q := by
  split
  · subst q; simp
  · simp [*]

@[simp] theorem State.sp_setSp (s : State) (v : Byte) : (s.setSp v).sp = v :=
  s.reg_setReg_self _ v

theorem State.setSp_eq (s : State) (v : Byte) : s.setSp v = s.setReg Config.spIndex v := rfl

/-- Two states with the same registers, one by one, hold the same register file. -/
theorem State.regs_ext {s t : State} (h : ∀ r, t.reg r = s.reg r) : t.regs = s.regs :=
  Vector.ext fun i hi => h ⟨i, hi⟩

end Sys2Proof.Machine
end

