-- ==== Sys2Proof/Laws/Ops.lean ====
section
/-!
SUPPORT. One lemma per shared operation that says everything it can do; later proofs cite these and do not
unfold the operation.
-/

namespace Sys2Proof.Machine

/-- `commit` commits all effects or takes the fault. -/
@[simp] theorem commit_ok (s t : State) : commit s (.ok t) = .next t := rfl

@[simp] theorem commit_error (s : State) (f : FaultStatus) :
    commit s (.error f) = .next (s.takeFault f) := rfl

/-- Everything `commit` can answer. -/
theorem commit_eq_next {s t : State} {e : Except FaultStatus State} :
    commit s e = .next t ↔ e = .ok t ∨ ∃ f, e = .error f ∧ t = s.takeFault f := by
  cases e with
  | ok u => simp
  | error f => simp [eq_comm]

/-- `commit` always answers a next state. -/
theorem commit_answers (s : State) (e : Except FaultStatus State) : ∃ t, commit s e = .next t := by
  cases e <;> simp

/-- The register index check on a register's number (R75). -/
theorem regIdx_of_lt {v : Byte} (h : v.toNat < 8) : regIdx v = .ok ⟨v.toNat, h⟩ := by
  simp [regIdx, h]

theorem regIdx_of_ge {v : Byte} (h : ¬ v.toNat < 8) : regIdx v = .error (registerIndexRange v) := by
  simp [regIdx, h]

/-- The byte that names register `r` passes the check as `r`. -/
@[simp] theorem regIdx_ofNat (r : RegIndex) : regIdx (BitVec.ofNat 8 r.val) = .ok r := by
  have h : (BitVec.ofNat 8 r.val).toNat = r.val := by
    have := r.isLt
    simp only [BitVec.toNat_ofNat]
    omega
  rw [regIdx_of_lt (by rw [h]; exact r.isLt)]
  exact congrArg _ (Fin.ext h)

/-- A read at a byte address cannot fault (R31, R96). -/
@[simp] theorem memRead_byte (s : State) (a : Byte) : memRead s a.toNat = .ok (s.mem.read a.toNat) := by
  rw [memRead, if_pos ⟨Int.natCast_nonneg _, Int.ofNat_lt.mpr a.isLt⟩, Int.toNat_natCast]

/-- A write at a byte address cannot fault (R31). -/
@[simp] theorem memWrite_byte (s : State) (a v : Byte) :
    memWrite s a.toNat v = .ok (s.setMem (s.mem.write a.toNat v)) := by
  rw [memWrite, if_pos ⟨Int.natCast_nonneg _, Int.ofNat_lt.mpr a.isLt⟩, Int.toNat_natCast]

/-- Everything moving the stack pointer down can answer (R95). -/
theorem stackDown_cases (sp : Byte) :
    (sp = 0 ∧ stackDown sp = .error (memoryRange (-1))) ∨ (sp ≠ 0 ∧ stackDown sp = .ok (sp - 1)) := by
  by_cases h : sp = 0
  · exact .inl ⟨h, if_pos h⟩
  · exact .inr ⟨h, if_neg h⟩

/-- Everything moving the stack pointer up can answer (R96). -/
theorem stackUp_cases (v : Byte) :
    (v = 0xFF ∧ stackUp v = .error (memoryRange 256)) ∨ (v ≠ 0xFF ∧ stackUp v = .ok (v + 1)) := by
  by_cases h : v = 0xFF
  · exact .inl ⟨h, if_pos h⟩
  · exact .inr ⟨h, if_neg h⟩

/-- The pointer moved down, as a number. -/
theorem toNat_sub_one {v : Byte} (h : v ≠ 0) : (v - 1).toNat = v.toNat - 1 := by
  have h0 : v.toNat ≠ 0 := fun e => h (BitVec.eq_of_toNat_eq e)
  have := v.isLt
  rw [BitVec.toNat_sub, show (1 : Byte).toNat = 1 from rfl]
  omega

/-- The pointer moved up, as a number. -/
theorem toNat_add_one {v : Byte} (h : v ≠ 0xFF) : (v + 1).toNat = v.toNat + 1 := by
  have h0 : v.toNat ≠ 255 := fun e => h (BitVec.eq_of_toNat_eq e)
  have := v.isLt
  rw [BitVec.toNat_add, show (1 : Byte).toNat = 1 from rfl]
  omega

/-- A transfer target keeps its value in the program counter. -/
theorem toNat_target (t : Byte) : (t.setWidth 9).toNat = t.toNat := by
  have := t.isLt
  rw [BitVec.toNat_setWidth]
  omega

/-- Everything CALL's return address can be (R100). -/
theorem returnAddress_cases (pc : PcWord) :
    (255 < pc.toNat + 2 ∧ returnAddress pc = .error (memoryRange 256)) ∨
    (pc.toNat + 2 ≤ 255 ∧ returnAddress pc = .ok (BitVec.ofNat 8 (pc.toNat + 2))) := by
  by_cases h : pc.toNat + 2 > 255
  · exact .inl ⟨h, if_pos h⟩
  · exact .inr ⟨by omega, if_neg h⟩

/-- A push that does not fault: the pointer moves down by one and the byte stands at the new pointer. -/
theorem pushByte_ok {s : State} (h : s.sp ≠ 0) (v : State → Byte) :
    pushByte s v = .ok ((s.setSp (s.sp - 1)).setMem
      (s.mem.write (s.sp - 1).toNat (v (s.setSp (s.sp - 1))))) := by
  have h1 : stackDown s.sp = .ok (s.sp - 1) := if_neg h
  simp only [pushByte, h1, bind, Except.bind, memWrite_byte]
  rfl

/-- A push with the stack pointer at 0 faults. -/
theorem pushByte_error {s : State} (h : s.sp = 0) (v : State → Byte) :
    pushByte s v = .error (memoryRange (-1)) := by
  simp [pushByte, stackDown, h, bind, Except.bind]

/-- The value of a result cut to eight bits (R5, R86). -/
theorem toNat_trunc8 (n : Int) : ((trunc8 n).toNat : Int) = n % 256 := by
  simp only [trunc8, BitVec.toNat_ofInt]
  omega

theorem toNat_aluAdd (u v : Byte) : (aluAdd u v).toNat = (u.toNat + v.toNat) % 256 := by
  have := toNat_trunc8 (u.toNat + v.toNat)
  unfold aluAdd; omega

theorem toNat_aluSub (u v : Byte) : (aluSub u v).toNat = (u.toNat + 256 - v.toNat) % 256 := by
  have := toNat_trunc8 (u.toNat - v.toNat)
  have := v.isLt
  unfold aluSub; omega

theorem toNat_aluMul (u v : Byte) : (aluMul u v).toNat = u.toNat * v.toNat % 256 := by
  have h := toNat_trunc8 (u.toNat * v.toNat)
  unfold aluMul
  rw [← Int.natCast_mul] at h ⊢
  omega

theorem toNat_aluDiv (u v : Byte) : (aluDiv u v).toNat = u.toNat / v.toNat := by
  have h := toNat_trunc8 ((u.toNat / v.toNat : Nat) : Int)
  have h2 : u.toNat / v.toNat ≤ u.toNat := Nat.div_le_self _ _
  have := u.isLt
  unfold aluDiv
  generalize u.toNat / v.toNat = q at h h2 ⊢
  omega

end Sys2Proof.Machine
end

