-- ==== Sys2Proof/Laws/Exec.lean ====
section
/-!
SUPPORT. One inversion lemma per meaning: everything the instruction can do, its own effect or the fault it
takes and when. Proofs over all instructions split with these and do not unfold a meaning.
-/

namespace Sys2Proof.Machine

@[simp] theorem regIdx_regByte (r : RegIndex) : regIdx (regByte r) = .ok r := regIdx_ofNat r

/-- A byte names a register, or the index check reports it. -/
theorem regByte_cases (v : Byte) :
    (∃ r, v = regByte r ∧ ¬ 7 < v.toNat) ∨
    (7 < v.toNat ∧ regIdx v = .error (registerIndexRange v)) := by
  by_cases h : v.toNat < 8
  · exact .inl ⟨⟨v.toNat, h⟩, by simp [regByte], by omega⟩
  · exact .inr ⟨by omega, regIdx_of_ge h⟩

@[simp] theorem toNat_regByte (r : RegIndex) : (regByte r).toNat = r.val := by
  have := r.isLt
  simp only [regByte, BitVec.toNat_ofNat]
  omega

theorem regByte_not_bad (r : RegIndex) : ¬ 7 < (regByte r).toNat := by
  have := r.isLt
  rw [toNat_regByte]; omega

@[simp] theorem namedReg_regByte (r : RegIndex) : namedReg (regByte r) = [r] := by
  have := r.isLt
  simp [namedReg, this]

/-- The frame of ADD, SUB and MUL. -/
theorem aluInPlace_cases (f : Byte → Byte → Byte) (a b : Byte) (s : State) :
    (∃ ra rb, a = regByte ra ∧ b = regByte rb ∧
      aluInPlace f a b s = .next ((s.setReg ra (f (s.reg ra) (s.reg rb))).advance 3)) ∨
    (∃ v, [a, b].find? (fun v => decide (7 < v.toNat)) = some v ∧
      aluInPlace f a b s = .next (s.takeFault (registerIndexRange v))) := by
  rcases regByte_cases a with ⟨ra, rfl, ha⟩ | ⟨ha, hea⟩
  · rcases regByte_cases b with ⟨rb, rfl, hb⟩ | ⟨hb, heb⟩
    · exact .inl ⟨ra, rb, rfl, rfl, by simp [aluInPlace, bind, Except.bind]⟩
    · exact .inr ⟨b, by simp [List.find?, -toNat_regByte, ha, hb], by simp [aluInPlace, bind, Except.bind, heb]⟩
  · exact .inr ⟨a, by simp [List.find?, ha], by simp [aluInPlace, bind, Except.bind, hea]⟩

theorem execDiv_cases (a b : Byte) (s : State) :
    (∃ ra rb, a = regByte ra ∧ b = regByte rb ∧ s.reg rb ≠ 0 ∧
      execDiv a b s = .next ((s.setReg ra (aluDiv (s.reg ra) (s.reg rb))).advance 3)) ∨
    (∃ ra rb, a = regByte ra ∧ b = regByte rb ∧ s.reg rb = 0 ∧
      execDiv a b s = .next (s.takeFault (divideByZero rb))) ∨
    (∃ v, [a, b].find? (fun v => decide (7 < v.toNat)) = some v ∧
      execDiv a b s = .next (s.takeFault (registerIndexRange v))) := by
  rcases regByte_cases a with ⟨ra, rfl, ha⟩ | ⟨ha, hea⟩
  · rcases regByte_cases b with ⟨rb, rfl, hb⟩ | ⟨hb, heb⟩
    · by_cases h : s.reg rb = 0
      · refine .inr (.inl ⟨ra, rb, rfl, rfl, h, ?_⟩)
        simp only [execDiv, bind, Except.bind, regIdx_regByte, if_pos h, commit_error]
      · refine .inl ⟨ra, rb, rfl, rfl, h, ?_⟩
        simp only [execDiv, bind, Except.bind, regIdx_regByte, if_neg h, commit_ok]
    · exact .inr (.inr ⟨b, by simp [List.find?, -toNat_regByte, ha, hb], by simp [execDiv, bind, Except.bind, heb]⟩)
  · exact .inr (.inr ⟨a, by simp [List.find?, ha], by simp [execDiv, bind, Except.bind, hea]⟩)

theorem execCmp_cases (a b : Byte) (s : State) :
    (∃ ra rb, a = regByte ra ∧ b = regByte rb ∧
      execCmp a b s = .next ((s.setFl (compareFlags (s.reg ra) (s.reg rb))).advance 3)) ∨
    (∃ v, [a, b].find? (fun v => decide (7 < v.toNat)) = some v ∧
      execCmp a b s = .next (s.takeFault (registerIndexRange v))) := by
  rcases regByte_cases a with ⟨ra, rfl, ha⟩ | ⟨ha, hea⟩
  · rcases regByte_cases b with ⟨rb, rfl, hb⟩ | ⟨hb, heb⟩
    · exact .inl ⟨ra, rb, rfl, rfl, by simp [execCmp, bind, Except.bind]⟩
    · exact .inr ⟨b, by simp [List.find?, -toNat_regByte, ha, hb], by simp [execCmp, bind, Except.bind, heb]⟩
  · exact .inr ⟨a, by simp [List.find?, ha], by simp [execCmp, bind, Except.bind, hea]⟩

theorem execLdi_cases (a b : Byte) (s : State) :
    (∃ ra, a = regByte ra ∧ execLdi a b s = .next ((s.setReg ra b).advance 3)) ∨
    (7 < a.toNat ∧ execLdi a b s = .next (s.takeFault (registerIndexRange a))) := by
  rcases regByte_cases a with ⟨ra, rfl, _⟩ | ⟨ha, hea⟩
  · exact .inl ⟨ra, rfl, by simp [execLdi, bind, Except.bind]⟩
  · exact .inr ⟨ha, by simp [execLdi, bind, Except.bind, hea]⟩

theorem execPrn_cases (a : Byte) (s : State) :
    (∃ ra, a = regByte ra ∧ execPrn a s = .next ((s.emit (s.reg ra)).advance 2)) ∨
    (7 < a.toNat ∧ execPrn a s = .next (s.takeFault (registerIndexRange a))) := by
  rcases regByte_cases a with ⟨ra, rfl, _⟩ | ⟨ha, hea⟩
  · exact .inl ⟨ra, rfl, by simp [execPrn, bind, Except.bind]⟩
  · exact .inr ⟨ha, by simp [execPrn, bind, Except.bind, hea]⟩

/-- The state after the push of a byte that is `v` of the state with the stack pointer moved down. -/
def pushed (s : State) (v : State → Byte) : State :=
  (s.setSp (s.sp - 1)).setMem (s.mem.write (s.sp - 1).toNat (v (s.setSp (s.sp - 1))))

theorem execPush_cases (a : Byte) (s : State) :
    (∃ ra, a = regByte ra ∧ s.sp ≠ 0 ∧
      execPush a s = .next ((pushed s fun s1 => s1.reg ra).advance 2)) ∨
    (∃ ra, a = regByte ra ∧ s.sp = 0 ∧ execPush a s = .next (s.takeFault (memoryRange (-1)))) ∨
    (7 < a.toNat ∧ execPush a s = .next (s.takeFault (registerIndexRange a))) := by
  rcases regByte_cases a with ⟨ra, rfl, _⟩ | ⟨ha, hea⟩
  · by_cases h : s.sp = 0
    · refine .inr (.inl ⟨ra, rfl, h, ?_⟩)
      simp only [execPush, bind, Except.bind, regIdx_regByte, pushByte_error h, commit_error]
    · refine .inl ⟨ra, rfl, h, ?_⟩
      simp only [execPush, bind, Except.bind, regIdx_regByte, pushByte_ok h, commit_ok, pushed]
  · exact .inr (.inr ⟨ha, by simp [execPush, bind, Except.bind, hea]⟩)

/-- What register 7 holds before POP's increment (R96). -/
def popBase (r : RegIndex) (s : State) : Byte :=
  if r = Config.spIndex then s.mem.read s.sp.toNat else s.sp

theorem execPop_cases (a : Byte) (s : State) :
    (∃ ra, a = regByte ra ∧ popBase ra s ≠ 0xFF ∧
      execPop a s = .next (((s.setReg ra (s.mem.read s.sp.toNat)).setSp (popBase ra s + 1)).advance 2)) ∨
    (∃ ra, a = regByte ra ∧ popBase ra s = 0xFF ∧
      execPop a s = .next (s.takeFault (memoryRange 256))) ∨
    (7 < a.toNat ∧ execPop a s = .next (s.takeFault (registerIndexRange a))) := by
  rcases regByte_cases a with ⟨ra, rfl, _⟩ | ⟨ha, hea⟩
  · rcases stackUp_cases (popBase ra s) with ⟨h, hs⟩ | ⟨h, hs⟩
    · refine .inr (.inl ⟨ra, rfl, h, ?_⟩)
      unfold popBase at hs
      simp only [execPop, bind, Except.bind, regIdx_regByte, memRead_byte, hs, commit_error]
    · refine .inl ⟨ra, rfl, h, ?_⟩
      unfold popBase at hs ⊢
      simp only [execPop, bind, Except.bind, regIdx_regByte, memRead_byte, hs, commit_ok]
  · exact .inr (.inr ⟨ha, by simp [execPop, bind, Except.bind, hea]⟩)

theorem execCall_cases (a : Byte) (s : State) :
    (∃ ra, a = regByte ra ∧ s.pc.toNat + 2 ≤ 255 ∧ s.sp ≠ 0 ∧
      execCall a s = .next ((pushed s fun _ => BitVec.ofNat 8 (s.pc.toNat + 2)).setPc
        ((s.setSp (s.sp - 1)).reg ra))) ∨
    (∃ ra, a = regByte ra ∧ 255 < s.pc.toNat + 2 ∧
      execCall a s = .next (s.takeFault (memoryRange 256))) ∨
    (∃ ra, a = regByte ra ∧ s.pc.toNat + 2 ≤ 255 ∧ s.sp = 0 ∧
      execCall a s = .next (s.takeFault (memoryRange (-1)))) ∨
    (7 < a.toNat ∧ execCall a s = .next (s.takeFault (registerIndexRange a))) := by
  rcases regByte_cases a with ⟨ra, rfl, _⟩ | ⟨ha, hea⟩
  · rcases returnAddress_cases s.pc with ⟨hp, hr⟩ | ⟨hp, hr⟩
    · refine .inr (.inl ⟨ra, rfl, hp, ?_⟩)
      simp only [execCall, bind, Except.bind, regIdx_regByte, hr, commit_error]
    · by_cases h : s.sp = 0
      · refine .inr (.inr (.inl ⟨ra, rfl, hp, h, ?_⟩))
        simp only [execCall, bind, Except.bind, regIdx_regByte, hr, pushByte_error h, commit_error]
      · refine .inl ⟨ra, rfl, hp, h, ?_⟩
        simp only [execCall, bind, Except.bind, regIdx_regByte, hr, pushByte_ok h, commit_ok, pushed,
          State.reg_setMem]
  · exact .inr (.inr (.inr ⟨ha, by simp [execCall, bind, Except.bind, hea]⟩))

theorem execRet_cases (s : State) :
    (s.sp ≠ 0xFF ∧ execRet s = .next ((s.setSp (s.sp + 1)).setPc (s.mem.read s.sp.toNat))) ∨
    (s.sp = 0xFF ∧ execRet s = .next (s.takeFault (memoryRange 256))) := by
  rcases stackUp_cases s.sp with ⟨h, hs⟩ | ⟨h, hs⟩
  · exact .inr ⟨h, by simp [execRet, bind, Except.bind, hs]⟩
  · exact .inl ⟨h, by simp [execRet, bind, Except.bind, hs]⟩

theorem execJmp_cases (a : Byte) (s : State) :
    (∃ ra, a = regByte ra ∧ execJmp a s = .next (s.setPc (s.reg ra))) ∨
    (7 < a.toNat ∧ execJmp a s = .next (s.takeFault (registerIndexRange a))) := by
  rcases regByte_cases a with ⟨ra, rfl, _⟩ | ⟨ha, hea⟩
  · exact .inl ⟨ra, rfl, by simp [execJmp, bind, Except.bind]⟩
  · exact .inr ⟨ha, by simp [execJmp, bind, Except.bind, hea]⟩

theorem execJeq_cases (a : Byte) (s : State) :
    (∃ ra, a = regByte ra ∧ s.fl.getLsbD 0 = true ∧ execJeq a s = .next (s.setPc (s.reg ra))) ∨
    (∃ ra, a = regByte ra ∧ s.fl.getLsbD 0 = false ∧ execJeq a s = .next (s.advance 2)) ∨
    (7 < a.toNat ∧ execJeq a s = .next (s.takeFault (registerIndexRange a))) := by
  rcases regByte_cases a with ⟨ra, rfl, _⟩ | ⟨ha, hea⟩
  · cases h : s.fl.getLsbD 0
    · refine .inr (.inl ⟨ra, rfl, rfl, ?_⟩)
      simp only [execJeq, bind, Except.bind, regIdx_regByte, equalFlag, h]; rfl
    · refine .inl ⟨ra, rfl, rfl, ?_⟩
      simp only [execJeq, bind, Except.bind, regIdx_regByte, equalFlag, h]; rfl
  · exact .inr (.inr ⟨ha, by simp [execJeq, bind, Except.bind, hea]⟩)

theorem execJne_cases (a : Byte) (s : State) :
    (∃ ra, a = regByte ra ∧ s.fl.getLsbD 0 = false ∧ execJne a s = .next (s.setPc (s.reg ra))) ∨
    (∃ ra, a = regByte ra ∧ s.fl.getLsbD 0 = true ∧ execJne a s = .next (s.advance 2)) ∨
    (7 < a.toNat ∧ execJne a s = .next (s.takeFault (registerIndexRange a))) := by
  rcases regByte_cases a with ⟨ra, rfl, _⟩ | ⟨ha, hea⟩
  · cases h : s.fl.getLsbD 0
    · refine .inl ⟨ra, rfl, rfl, ?_⟩
      simp only [execJne, bind, Except.bind, regIdx_regByte, equalFlag, h]; rfl
    · refine .inr (.inl ⟨ra, rfl, rfl, ?_⟩)
      simp only [execJne, bind, Except.bind, regIdx_regByte, equalFlag, h]; rfl
  · exact .inr (.inr ⟨ha, by simp [execJne, bind, Except.bind, hea]⟩)

theorem execHlt_eq (s : State) : execHlt s = .next s.halt := rfl

end Sys2Proof.Machine
end

