-- ==== Sys2Proof/Laws/PerInstr.lean ====
section
/-!
SUPPORT. Statements made of every instruction, one lemma per constructor. The family Length: an encoding
has the instruction's width, 1 to 3 bytes (spec/30_encoding.md R50, R58).
-/

namespace Sys2Proof.Laws.Length

/-- The encoding under any opcode map has the instruction's width, 1 to 3 bytes. -/
def Statement (i : Instr) : Prop :=
  ∀ m : OpcodeMap, (encodeWith m i).length = i.width ∧ 1 ≤ i.width ∧ i.width ≤ 3

theorem operandCount_le (k : Mnemonic) : k.operandCount ≤ 2 := by
  cases k <;> decide

/-- The width is the opcode byte and the operand bytes. -/
theorem of_any (i : Instr) : Statement i := fun m =>
  have h := operandCount_le i.mnemonic
  ⟨by rw [encodeWith, List.length_cons, i.length_operands, Instr.width, Nat.add_comm],
    Nat.le_add_right _ _, by rw [Instr.width]; omega⟩

theorem add (a b : Byte) : Statement (.add a b) := of_any _
theorem sub (a b : Byte) : Statement (.sub a b) := of_any _
theorem mul (a b : Byte) : Statement (.mul a b) := of_any _
theorem div (a b : Byte) : Statement (.div a b) := of_any _
theorem cmp (a b : Byte) : Statement (.cmp a b) := of_any _
theorem ldi (a b : Byte) : Statement (.ldi a b) := of_any _
theorem prn (a : Byte) : Statement (.prn a) := of_any _
theorem push (a : Byte) : Statement (.push a) := of_any _
theorem pop (a : Byte) : Statement (.pop a) := of_any _
theorem call (a : Byte) : Statement (.call a) := of_any _
theorem ret : Statement .ret := of_any _
theorem jmp (a : Byte) : Statement (.jmp a) := of_any _
theorem jeq (a : Byte) : Statement (.jeq a) := of_any _
theorem jne (a : Byte) : Statement (.jne a) := of_any _
theorem hlt : Statement .hlt := of_any _

end Sys2Proof.Laws.Length
end

