-- ==== Sys2Proof/Laws/Step.lean ====
section
/-!
SUPPORT. What a step can do, said once, and the small lemmas of the fetch window.
-/

namespace Sys2Proof.Machine

/-- The window at an address of memory starts with its byte. -/
theorem Memory.window_succ (m : Memory) {k : Nat} (n : Nat) (h : k < 256) :
    m.window k (n + 1) = m.read k :: m.window (k + 1) n :=
  if_pos h

/-- The window beyond memory is empty. -/
theorem Memory.window_beyond (m : Memory) {k : Nat} (n : Nat) (h : 256 ≤ k) : m.window k n = [] := by
  cases n with
  | zero => rfl
  | succ n => exact if_neg (Nat.not_lt.mpr h)

/-- Everything a step can do: nothing, run the fetched instruction, or take the fault of the fetch. -/
theorem stepWith_cases (m : OpcodeMap) (s : State) :
    (s.running = false ∧ stepWith m s = .next s) ∨
    (s.running = true ∧ ∃ i, fetchWith m s = .ok i ∧ stepWith m s = exec i s) ∨
    (s.running = true ∧ ∃ f, fetchWith m s = .error f ∧ stepWith m s = .next (s.takeFault f)) := by
  cases hr : s.running with
  | false => exact .inl ⟨rfl, by simp [stepWith, hr]⟩
  | true =>
    cases hf : fetchWith m s with
    | ok i => exact .inr (.inl ⟨rfl, i, rfl, by simp [stepWith, hr, hf]⟩)
    | error f => exact .inr (.inr ⟨rfl, f, rfl, by simp [stepWith, hr, hf]⟩)

/-- Everything a fetch that fails can report. -/
theorem fetchWith_error {m : OpcodeMap} {s : State} {f : FaultStatus} (h : fetchWith m s = .error f) :
    (255 < s.pc.toNat ∧ f = memoryRange s.pc.toNat) ∨
    (f = unknownInstruction (s.mem.read s.pc.toNat) ∧ classify m (s.mem.read s.pc.toNat) = .unknown) ∨
    f = memoryRange 256 ∨
    (f = aluUndefinedOp (s.mem.read s.pc.toNat) ∧
      classify m (s.mem.read s.pc.toNat) = .aluUndefined) := by
  unfold fetchWith at h
  by_cases hp : s.pc.toNat < 256
  · rw [Memory.window_succ _ _ hp] at h
    simp only [decodeWith] at h
    cases hc : classify m (s.mem.read s.pc.toNat) with
    | unknown =>
      rw [hc] at h
      exact .inr (.inl ⟨(Except.error.inj h).symm, rfl⟩)
    | aluUndefined =>
      rw [hc] at h
      dsimp only at h
      split at h
      · cases h
      · rename_i e he
        split at he <;> cases he <;> cases h
        · exact .inr (.inr (.inr ⟨rfl, rfl⟩))
        · exact .inr (.inr (.inl rfl))
    | known k =>
      rw [hc] at h
      dsimp only at h
      split at h
      · cases h
      · rename_i e he
        split at he <;> cases he
        cases h
        exact .inr (.inr (.inl rfl))
  · rw [Memory.window_beyond _ _ (Nat.not_lt.mp hp)] at h
    exact .inl ⟨Nat.lt_of_not_le fun hle => hp (by omega), (Except.error.inj h).symm⟩

end Sys2Proof.Machine
end

