-- ==== Sys2Proof/Tests/Slice0.lean ====
section
/-!
SUPPORT. Tests. Expected results are the spec's: the vectors of spec/95_test_vectors.md, named by their row
(A1, S2, ...), and words written out from the encodings of spec/30_encoding.md R50 and R53. At the end, for
each statement of Obligations.lean that has hypotheses, a state that meets them.
-/

namespace Sys2Proof.Tests

open Sys2Proof Sys2Proof.Machine

/-! ### Well-formedness: one ill-formed term for each check -/

theorem test_wf_literal_is_any_byte : (Instr.ldi 7 255).wellFormed = true := by decide
theorem test_wf_no_operand : Instr.ret.wellFormed = true ∧ Instr.hlt.wellFormed = true := by decide
theorem test_wf_refuses_first_index :
    [Instr.add 8 0, .sub 8 0, .mul 8 0, .div 8 0, .cmp 8 0, .ldi 8 0, .prn 8, .push 8, .pop 8, .call 8,
      .jmp 8, .jeq 8, .jne 8].any Instr.wellFormed = false := by decide
theorem test_wf_refuses_second_index :
    [Instr.add 0 8, .sub 0 9, .mul 0 255, .div 0 8, .cmp 0 8].any Instr.wellFormed = false := by decide

/-! ### Decoding: every constructor by a word written out from R53 and R50 -/

theorem test_decode_add : decode [0b10100000, 0b00000001, 0b00000010] = .ok (.add 1 2, []) := rfl
theorem test_decode_sub : decode [0b10100001, 0b00000001, 0b00000010] = .ok (.sub 1 2, []) := rfl
theorem test_decode_mul : decode [0b10100010, 0b00000001, 0b00000010] = .ok (.mul 1 2, []) := rfl
theorem test_decode_div : decode [0b10100011, 0b00000001, 0b00000010] = .ok (.div 1 2, []) := rfl
theorem test_decode_cmp : decode [0b10100111, 0b00000001, 0b00000010] = .ok (.cmp 1 2, []) := rfl
theorem test_decode_ldi : decode [0b10000010, 0b00000001, 0b11001000] = .ok (.ldi 1 200, []) := rfl
theorem test_decode_prn : decode [0b01000111, 0b00000110] = .ok (.prn 6, []) := rfl
theorem test_decode_push : decode [0b01000101, 0b00000101] = .ok (.push 5, []) := rfl
theorem test_decode_pop : decode [0b01000110, 0b00000100] = .ok (.pop 4, []) := rfl
theorem test_decode_call : decode [0b01010000, 0b00000011] = .ok (.call 3, []) := rfl
theorem test_decode_ret : decode [0b00010001] = .ok (.ret, []) := rfl
theorem test_decode_jmp : decode [0b01010100, 0b00000010] = .ok (.jmp 2, []) := rfl
theorem test_decode_jeq : decode [0b01010101, 0b00000001] = .ok (.jeq 1, []) := rfl
theorem test_decode_jne : decode [0b01010110, 0b00000000] = .ok (.jne 0, []) := rfl
theorem test_decode_hlt : decode [0b00000001] = .ok (.hlt, []) := rfl

/-- The bytes after an instruction are left over, and an index byte is not masked (R50, R52). -/
theorem test_decode_rest : decode [0x47, 0xFF, 0xA0] = .ok (.prn 255, [0xA0]) := rfl
/-- R55, E6 to E9: an unknown opcode needs no operand byte. -/
theorem test_decode_unknown : [0x00, 0x02, 0x10, 0x12, 0x44, 0x51, 0x57, 0x80, 0x83, 0xC0].all
    (fun ir => decide (classify opcodeMap ir = .unknown)) = true := by decide
/-- R56, E1 to E4. -/
theorem test_decode_alu_undefined : [0xA4, 0x20, 0xFF, 0xE0, 0x3F, 0x60, 0xBF].all
    (fun ir => decide (classify opcodeMap ir = .aluUndefined)) = true := by decide
/-- R128, E5: the operand bytes come before the undefined operation. -/
theorem test_decode_truncated : decode [0xA4, 0x00] = .error .truncated ∧
    decode [0xA4, 0x08, 0x09] = .error (.aluUndefined 0xA4) := ⟨rfl, rfl⟩
/-- The numbering of spec/opcode_table.json: the byte at pc is bits 7 to 0. -/
theorem test_table_word : decodeTableWord 24 0x0201A0 = some (.add 1 2) ∧
    decodeTableWord 8 0xFFFF47 = some (.prn 0) ∧ decodeTableWord 8 0x11 = some .ret ∧
    decodeTableWord 8 0x00 = none := by decide

/-! ### One step -/

/-- The state after a step that answers one. -/
def after : Result → Option State
  | .next t => some t
  | .fault _ => none
  | .refused _ => none

/-- Reset with the bytes at address `pc` and the program counter there. -/
def code (pc : PcWord) (bytes : List Byte) : State :=
  { State.reset with pc := pc }.placeAtPc bytes

/-- A view of the state after a step. -/
def see {α : Type} (f : State → α) (s : State) : Option α :=
  (after (step s)).map f

/-- The fault pair, `running` and `pc`, as the vectors list them. -/
def stop (t : State) : Nat × Int × Bool × Nat :=
  (t.fault.code.number, t.fault.info, t.running, t.pc.toNat)

/-- A1. -/
theorem test_add_wraps : see (fun t => (t.reg 0, t.reg 1, t.pc, t.fl))
    (((code 0 [0xA0, 0, 1]).setReg 0 200).setReg 1 100) = some (44, 100, 3, 0) := by decide
/-- A3. -/
theorem test_add_same_register : see (fun t => (t.reg 0, t.pc))
    ((code 0 [0xA0, 0, 0]).setReg 0 0x90) = some (0x20, 3) := by decide
/-- A4. -/
theorem test_sub_wraps : see (fun t => (t.reg 0, t.pc))
    (((code 0 [0xA1, 0, 1]).setReg 0 5).setReg 1 9) = some (252, 3) := by decide
/-- A9. -/
theorem test_mul_keeps_low_byte : see (fun t => (t.reg 0, t.pc))
    (((code 0 [0xA2, 0, 1]).setReg 0 255).setReg 1 255) = some (1, 3) := by decide
/-- A10. -/
theorem test_mul_no_overflow : see (fun t => t.reg 0)
    (((code 0 [0xA2, 0, 1]).setReg 0 15).setReg 1 17) = some 255 := by decide
/-- A11. -/
theorem test_div_floor : see (fun t => (t.reg 0, t.pc))
    (((code 0 [0xA3, 0, 1]).setReg 0 255).setReg 1 2) = some (127, 3) := by decide
/-- A15. -/
theorem test_div_by_zero : see (fun t => (stop t, t.reg 0))
    ((code 0 [0xA3, 0, 1]).setReg 0 9) = some ((2, 1, false, 0), 9) := by decide
/-- A18. -/
theorem test_cmp_clears_old_flag : see (fun t => (t.fl, t.pc))
    ((((code 0 [0xA7, 0, 1]).setReg 0 5).setReg 1 3).setFl 0b100) = some (0b010, 3) := by decide
/-- A20. -/
theorem test_cmp_unsigned : see (fun t => t.fl)
    (((code 0 [0xA7, 0, 1]).setReg 0 0x80).setReg 1 0x7F) = some 0b010 := by decide
/-- L3. -/
theorem test_ldi_stack_pointer : see (fun t => (t.reg 7, t.pc)) (code 0 [0x82, 7, 0x20]) =
    some (0x20, 3) := by decide
/-- L2. -/
theorem test_ldi_literal_not_checked : see (fun t => t.reg 0) (code 0 [0x82, 0, 0xC8]) =
    some 0xC8 := by decide
/-- L7. -/
theorem test_prn_stack_pointer : see (fun t => (t.out, t.pc)) (code 0 [0x47, 7]) =
    some ([244], 2) := by decide
/-- L8. -/
theorem test_prn_bad_index : see (fun t => (stop t, t.out)) (code 0 [0x47, 0xFF]) =
    some ((5, 255, false, 0), []) := by decide
/-- S2. -/
theorem test_push_r7_stores_decremented : see (fun t => (t.reg 7, t.mem.read 0xF3, t.pc))
    (code 0 [0x45, 7]) = some (0xF3, 0xF3, 2) := by decide
/-- S3: the store overwrites this PUSH's own opcode. -/
theorem test_push_over_itself : see (fun t => (t.reg 7, t.mem.read 0, t.pc))
    (((code 0 [0x45, 0]).setReg 0 0x99).setReg 7 1) = some (0, 0x99, 2) := by decide
/-- S7. -/
theorem test_pop_r7_increments_loaded : see (fun t => (t.reg 7, t.pc))
    (((code 0 [0x46, 7]).setReg 7 0xF3).setMem ((code 0 [0x46, 7]).mem.write 0xF3 0x20)) =
    some (0x21, 2) := by decide
/-- S10. -/
theorem test_pop_at_top : see (fun t => (stop t, t.reg 0, t.reg 7))
    (((code 0 [0x46, 0]).setReg 7 0xFF).setMem ((code 0 [0x46, 0]).mem.write 0xFF 5)) =
    some ((4, 256, false, 0), 0, 0xFF) := by decide
/-- C2. -/
theorem test_call_r7 : see (fun t => (t.reg 7, t.mem.read 0xF3, t.pc)) (code 6 [0x50, 7]) =
    some (0xF3, 0x08, 0xF3) := by decide
/-- C4. -/
theorem test_call_at_254 : see (fun t => (stop t, t.reg 7, t.mem.read 0xF3))
    ((code 254 [0x50, 1]).setReg 1 3) = some ((4, 256, false, 254), 0xF4, 0) := by decide
/-- C8: RET at 255 fetches no operand. -/
theorem test_ret_at_255 : see (fun t => (t.pc, t.reg 7, t.running))
    (((code 255 [0x11]).setReg 7 0xF3).setMem ((code 255 [0x11]).mem.write 0xF3 8)) =
    some (8, 0xF4, true) := by decide
/-- C9. -/
theorem test_ret_at_top : see stop (((code 0 [0x11]).setReg 7 0xFF)) =
    some (4, 256, false, 0) := by decide
/-- C10. -/
theorem test_jmp : see (fun t => (t.pc, t.reg 4)) ((code 0 [0x54, 4]).setReg 4 0x0F) =
    some (0x0F, 0x0F) := by decide
/-- C12. -/
theorem test_jeq_taken : see (fun t => (t.pc, t.fl))
    (((code 0x10 [0x55, 2]).setReg 2 0x30).setFl 0b001) = some (0x30, 0b001) := by decide
/-- C16: `pc` becomes 256 and does not wrap. -/
theorem test_jeq_not_taken_at_254 : see (fun t => (t.pc, t.running))
    (((code 254 [0x55, 2]).setReg 2 0x30).setFl 0b010) = some (256, true) := by decide
/-- C19. -/
theorem test_jne_taken_before_any_cmp : see (fun t => t.pc) ((code 0x18 [0x56, 4]).setReg 4 0x0F) =
    some 0x0F := by decide
/-- C18. -/
theorem test_jne_not_taken : see (fun t => t.pc)
    (((code 0x18 [0x56, 4]).setReg 4 0x0F).setFl 0b001) = some 0x1A := by decide
/-- H2. -/
theorem test_hlt_at_255 : see stop (code 255 [0x01]) = some (0, 0, false, 255) := by decide
/-- H3: the second step changes nothing. -/
theorem test_step_when_halted : step (State.reset.halt) = .next State.reset.halt := rfl
/-- F1. -/
theorem test_fetch_at_256 : see stop { State.reset with pc := 256 } = some (4, 256, false, 256) := by
  decide
/-- E9: an unknown opcode at 255 fetches no operand. -/
theorem test_unknown_at_255 : see stop (code 255 [0xC0]) = some (1, 0xC0, false, 255) := by decide
/-- E1: the operand bytes of an undefined ALU operation are not checked. -/
theorem test_alu_undefined : see stop (code 0 [0xA4, 8, 9]) = some (3, 0xA4, false, 0) := by decide
/-- A25. -/
theorem test_add_cut_by_memory_end : see stop (code 254 [0xA0, 0]) = some (4, 256, false, 254) := by
  decide
/-- A24. -/
theorem test_first_bad_index : see stop (code 0 [0xA0, 8, 9]) = some (5, 8, false, 0) := by decide
/-- The first step after reset runs the placed word: L1 as a number of spec/opcode_table.json. -/
theorem test_with_fetch_word : see (fun t => (t.reg 3, t.pc)) (State.reset.withFetchWord 24 0xFF0382) =
    some (0xFF, 3) := by decide
/-- The load of P1's last bytes leaves reset's registers and zeros above (R142). -/
theorem test_load : (loadProgram [0x47, 0x00, 0x01]).map (fun s => (s.mem.read 0, s.mem.read 2, s.mem.read 3,
    s.reg 7, s.pc)) = some (0x47, 0x01, 0, 0xF4, 0) := by decide

/-! ### Witnesses: a state that meets the hypotheses of each statement that has some -/

/-- EmptyMemoryHaltsAtOnce, DecodeEncodeAgree: a legal opcode map. -/
theorem witness_legal_map : opcodeMap.Legal := by decide
/-- LoadFillsMemoryFromAddressZero: the longest program and the shortest that is too long. -/
theorem witness_load : (List.replicate 256 (0x01 : Byte)).length ≤ 256 ∧
    256 < (List.replicate 257 (0x01 : Byte)).length := by
  simp only [List.length_replicate]; omega
/-- RunsOfLoadedProgramsMeetTheInvariant. -/
theorem witness_loaded : (loadProgram [0x01]).isSome = true := by decide
/-- DecodedBytesAreTheEncoding. -/
theorem witness_decodes : decodeWith opcodeMap [0x82, 0x00, 0x08, 0x01] = .ok (.ldi 0 8, [0x01]) := rfl

/-- Reset with one instruction at address 0 meets the invariant. -/
theorem code_inv (bytes : List Byte) : (code 0 bytes).Inv opcodeMap :=
  ⟨Memory.place_wf Memory.wf_nil 0 bytes, (by decide : (0 : PcWord).toNat ≤ 256), .inl rfl, fun _ => rfl, rfl⟩

/-- MemoryPrimitivesAndTheirRange: addresses at each end of each range. -/
theorem witness_addresses : (0 : Int) ≤ 0 ∧ (255 : Int) ≤ 255 ∧ (-1 : Int) < 0 ∧ (255 : Int) < 256 := by
  decide
/-- `code` with a stack pointer of our own meets the invariant. -/
theorem code_sp_inv (bytes : List Byte) (v : Byte) : ((code 0 bytes).setReg 7 v).Inv opcodeMap :=
  ⟨(code_inv bytes).mem_wf, (code_inv bytes).pc_le, .inl rfl, fun _ => rfl, rfl⟩
/-- MemoryPrimitivesAndTheirRange, last clause: POP R0 and RET with a stack pointer of 0xFF, PUSH with 0. -/
theorem witness_memory_range : ∀ c ∈ ([([0x46, 0], 0xFF, 256), ([0x11], 0xFF, 256), ([0x45, 0], 0, -1)] :
    List (List Byte × Byte × Int)), ∃ s : State, s.reg 7 = c.2.1 ∧ s.Inv opcodeMap ∧ s.running = true ∧
    see stop s = some (4, c.2.2, false, 0) := by
  intro c hc
  simp only [List.mem_cons, List.not_mem_nil, or_false] at hc
  rcases hc with rfl | rfl | rfl
  · exact ⟨(code 0 [0x46, 0]).setReg 7 0xFF, rfl, code_sp_inv _ _, rfl, by decide⟩
  · exact ⟨(code 0 [0x11]).setReg 7 0xFF, rfl, code_sp_inv _ _, rfl, by decide⟩
  · exact ⟨(code 0 [0x45, 0]).setReg 7 0, rfl, code_sp_inv _ _, rfl, by decide⟩
/-- MemoryPrimitivesAndTheirRange, last clause: POP R7 that loads 0xFF, and CALL at 254. -/
theorem witness_memory_range_pop_r7 : see stop (((code 0 [0x46, 7]).setReg 7 0xF3).setMem
    ((code 0 [0x46, 7]).mem.write 0xF3 0xFF)) = some (4, 256, false, 0) ∧
    see stop (code 254 [0x50, 1]) = some (4, 256, false, 254) := by decide
/-- EqualReadsAreEqualMemories: a canonical memory that lists cells. -/
theorem witness_canonical : Memory.wf [(0, 0x82), (255, 0x01)] := by decide
/-- OnlyStackInstructionsAccessMemory: two memories that agree at reset's stack pointer only. -/
theorem witness_memories : Memory.read [(0, 1), (0xF4, 9)] (State.reset.reg 7).toNat =
    Memory.read [(0xF4, 9)] (State.reset.reg 7).toNat := by decide
/-- OnlyStackInstructionsAccessMemory: PUSH, CALL, POP and RET that do not fault at the ends of the stack
pointer's range, over two memories that differ at its address. -/
theorem witness_accesses : execFault (.push 0) (State.reset.setReg 7 1) = none ∧
    execFault (.call 0) { State.reset.setReg 7 1 with pc := 253 } = none ∧
    (∀ m ∈ ([[(0xFE, 1)], [(0xFE, 2)]] : List Memory),
      execFault (.pop 0) { State.reset.setReg 7 0xFE with mem := m } = none ∧
      execFault .ret { State.reset.setReg 7 0xFE with mem := m } = none) ∧
    Memory.read [(0xFE, 1)] ((State.reset.setReg 7 0xFE).reg 7).toNat ≠
      Memory.read [(0xFE, 2)] ((State.reset.setReg 7 0xFE).reg 7).toNat := by decide
/-- StoreIsSeenByTheNextFetch, PushCompletes, CallCompletes, PushThenPopRestores,
ReturnResumesAfterTheCall: the last address CALL may stand at, and the lowest stack pointer. -/
theorem witness_stack : ∃ s : State, s.pc.toNat + 2 ≤ 255 ∧ s.reg 7 ≠ 0 :=
  ⟨{ State.reset.setReg 7 1 with pc := 253 }, by decide, by decide⟩
/-- StoreIsSeenByTheNextFetch: a state that fetches at the address a CALL stored at, the CALL's own next. -/
theorem witness_fetch_at_store : ∃ t u : State, exec (.call 7) State.reset = .next t ∧
    u.pc.toNat + 1 = (State.reset.reg 7).toNat ∧ u.mem.read u.pc.toNat = t.mem.read u.pc.toNat ∧ u = t :=
  ⟨_, _, rfl, by decide, rfl, rfl⟩
/-- StepFollowsTheFetchPseudocode, FetchReportsTheFirstFault: RUNNING at both ends of memory. -/
theorem witness_running : State.reset.running = true ∧
    ({ State.reset with pc := 256 } : State).running = true := ⟨rfl, rfl⟩
/-- StepRunsTheDecodedInstruction: RUNNING with an instruction's encoding at the last address. -/
theorem witness_code : ∃ s : State, s.running = true ∧ s.CodeAt (encode .hlt) ∧
    decodeWith opcodeMap (s.mem.window s.pc.toNat 3) = .ok (.hlt, []) :=
  ⟨code 255 [0x01], rfl, ⟨by decide, by decide⟩, rfl⟩
/-- HaltedMachineDoesNothing, HaltedRunsAreOver, RunningFlagFollowsItsRule, FaultRecordIsNeitherReadNorCleared. -/
theorem witness_halted : State.reset.halt.running = false ∧ runFor 0 State.reset.halt = .next State.reset.halt :=
  ⟨rfl, rfl⟩
/-- StepKeepsTheInvariant, StepGoesOnHaltsOrFaults, RunningFlagFollowsItsRule: a step from a legal state. -/
theorem witness_step : ∃ s t : State, s.Inv opcodeMap ∧ s.running = true ∧ s.fault.code = .none ∧
    step s = .next t :=
  ⟨code 0 [0x01], (code 0 [0x01]).halt, code_inv [0x01], rfl, rfl, rfl⟩
/-- HaltedRunsAreOver: a run that reaches a HALTED state. -/
theorem witness_run : runFor 1 (code 0 [0x01]) = .next (code 0 [0x01]).halt ∧
    (code 0 [0x01]).halt.running = false := ⟨rfl, rfl⟩
/-- InstructionReportsTheFirstFault, FaultRecordIsNeitherReadNorCleared: an instruction with each fault and
one with none. -/
theorem witness_exec_faults :
    execFault (.add 0 8) State.reset = some ⟨.registerIndexRange, 8⟩ ∧
    execFault (.div 0 1) State.reset = some ⟨.divideByZero, 1⟩ ∧
    execFault (.push 0) (State.reset.setReg 7 0) = some ⟨.memoryRange, -1⟩ ∧
    execFault (.pop 0) (State.reset.setReg 7 0xFF) = some ⟨.memoryRange, 256⟩ ∧
    execFault .ret (State.reset.setReg 7 0xFF) = some ⟨.memoryRange, 256⟩ ∧
    execFault (.call 0) { State.reset.setReg 7 0 with pc := 254 } = some ⟨.memoryRange, 256⟩ ∧
    execFault (.call 0) { State.reset.setReg 7 0 with pc := 253 } = some ⟨.memoryRange, -1⟩ ∧
    execFault (.jmp 7) State.reset = none := by decide
/-- UnknownOpcodeFaults. -/
theorem witness_unknown : ∃ s : State, s.running = true ∧ s.pc.toNat ≤ 255 ∧
    (s.mem.read s.pc.toNat).getLsbD 5 = false ∧ ∀ k ∈ controlTable, opcodeMap k ≠ s.mem.read s.pc.toNat :=
  ⟨code 255 [0xC0], rfl, by decide, by decide, by decide⟩
/-- UndefinedAluOpcodeFaults, with its operand bytes in memory (253) and not (254). -/
theorem witness_undefined_alu : ∀ p ∈ ([253, 254] : List PcWord), ∃ s : State, s.pc = p ∧
    s.running = true ∧ s.pc.toNat ≤ 255 ∧ (s.mem.read s.pc.toNat).getLsbD 5 = true ∧
    ∀ k ∈ aluTable, opcodeMap k ≠ s.mem.read s.pc.toNat := by
  intro p hp
  simp only [List.mem_cons, List.not_mem_nil, or_false] at hp
  rcases hp with rfl | rfl
  · exact ⟨code 253 [0xA4], rfl, rfl, by decide, by decide, by decide⟩
  · exact ⟨code 254 [0xA4], rfl, rfl, by decide, by decide, by decide⟩
/-- DivideByZeroFaults: a zero divisor, a bad index, and the step that records the fault. -/
theorem witness_divide_by_zero : State.reset.reg 1 = 0 ∧ badIndex (.div 8 1) = some 8 ∧
    fetch (code 0 [0xA3, 0, 1]) = .ok (.div 0 1) ∧
    step (code 0 [0xA3, 0, 1]) = .next ((code 0 [0xA3, 0, 1]).takeFault (divideByZero 1)) ∧
    (code 0 [0xA3, 0, 1]).fault.code ≠ .divideByZero := by
  refine ⟨by decide, by decide, rfl, rfl, by decide⟩
/-- OnlyCompareWritesAndJumpsReadFlags: a faulting step, a step of an instruction that is not CMP, JEQ or
JNE, and two flag values with the same E. -/
theorem witness_flags : step State.reset = .next (State.reset.takeFault (unknownInstruction 0)) ∧
    (State.reset.takeFault (unknownInstruction 0)).fault ≠ State.reset.fault ∧
    exec .hlt State.reset = .next State.reset.halt ∧
    exec (.jeq 0) State.reset = .next (State.reset.advance 2) ∧
    equalFlag 0b100 = equalFlag State.reset.fl := by
  refine ⟨rfl, by decide, rfl, rfl, by decide⟩
/-- DivCompletes: the smallest divisor. -/
theorem witness_div : (State.reset.setReg 1 1).reg 1 ≠ 0 := by decide
/-- PopCompletes, RetCompletes: the largest stack pointer that may move up, and a loaded byte for POP R7. -/
theorem witness_pop : (State.reset.setReg 7 0xFE).reg 7 ≠ 0xFF ∧ (0 : RegIndex) ≠ 7 ∧
    State.reset.mem.read (State.reset.reg 7).toNat ≠ 0xFF := by decide
/-- The four frames and the tables: an instruction of each group that answers a next state. -/
theorem witness_frames : exec (.ldi 1 5) State.reset = .next ((State.reset.setReg 1 5).advance 3) ∧
    exec (.prn 1) State.reset = .next ((State.reset.emit 0).advance 2) ∧
    exec (.push 1) (State.reset.setReg 7 0) = .next ((State.reset.setReg 7 0).takeFault (memoryRange (-1))) ∧
    exec (.pop 8) State.reset = .next (State.reset.takeFault (registerIndexRange 8)) := by
  refine ⟨rfl, rfl, rfl, rfl⟩
/-- FrameOfPushAndCall: the stack pointer that moves and the one that cannot. -/
theorem witness_stack_down : stackDown (State.reset.setReg 7 1).sp = .ok 0 ∧
    stackDown (State.reset.setReg 7 0).sp = .error (memoryRange (-1)) := ⟨rfl, rfl⟩
/-- RegistersReadAndWrittenByTheTable: an unread register, written by POP and not written by JMP. -/
theorem witness_unread : 1 ∉ regsRead (.pop 1) State.reset ∧ 2 ∉ regsRead (.jmp 1) State.reset := by decide
/-- PushThenPopRestores: two register numbers. -/
theorem witness_registers : (0 : RegIndex) ≠ 7 ∧ (6 : RegIndex) ≠ 7 := by decide
/-- OnlyCallObservesThePc, OnlyStackInstructionsAccessMemory: an instruction that is none of those named. -/
theorem witness_other_instruction : (∀ a, Instr.hlt ≠ .call a) ∧ (∀ a, Instr.hlt ≠ .pop a) ∧ Instr.hlt ≠ .ret := by
  simp
/-- CompareThenConditionalJump, PushThenPopRestores, ReturnResumesAfterTheCall: a later state that leaves what
they ask for and changes something else. -/
theorem witness_later_state : (State.reset.setReg 1 9).fl = State.reset.fl ∧
    (State.reset.setReg 1 9).reg 7 = State.reset.reg 7 ∧
    (State.reset.setReg 1 9).mem.read 0xF3 = State.reset.mem.read 0xF3 ∧
    State.reset.setReg 1 9 ≠ State.reset := by decide
/-- OnlyPrintWritesTheOutputLog: a step that prints. -/
theorem witness_print : step (code 0 [0x47, 7]) = .next (((code 0 [0x47, 7]).emit 0xF4).advance 2) := rfl
/-- LoadThenPrintEmitsTheLiteral. -/
theorem witness_load_print : ∃ s : State, s.running = true ∧
    s.CodeAt (encode (.ldi (regByte 3) 255) ++ encode (.prn (regByte 3))) :=
  ⟨code 251 [0x82, 3, 255, 0x47, 3], rfl, by decide, by decide⟩

end Sys2Proof.Tests
end

section
/-!
SUPPORT. The proofs of the family State: `running` and `fl` (spec/10_state.md R17, R18). Two facts carry
them. `exec_ends` says the three ways an instruction can end, whatever it is. `exec_update` says that an
update of the state that the operations of the meanings neither observe nor undo can be made before or after
an instruction alike, which is how "no instruction reads this field" is proved.
-/

namespace Sys2Proof.Machine

/-! ### What a run of one instruction can end in -/

/-- The ways the result `r` of running `i` in `s` can end: the machine goes on, it halts by HLT, or it takes a
fault of R120 (R126, R145). -/
inductive Ends (i : Instr) (s : State) (r : Result) : Prop where
  | goesOn (t : State) (result : r = .next t) (not_hlt : i ≠ .hlt) (running : t.running = s.running)
      (fault : t.fault = s.fault) (fl : (∀ a b, i ≠ .cmp a b) → t.fl = s.fl)
  | halts (result : r = .next s.halt) (hlt : i = .hlt)
  | faults (f : FaultStatus) (result : r = .next (s.takeFault f)) (code : f.code ≠ .none)

theorem registerIndexRange_code_ne_none (v : Byte) : (registerIndexRange v).code ≠ .none := nofun

theorem memoryRange_code_ne_none (a : Int) : (memoryRange a).code ≠ .none := nofun

theorem divideByZero_code_ne_none (r : RegIndex) : (divideByZero r).code ≠ .none := nofun

/-- The three instructions that share `aluInPlace` end alike. -/
theorem aluInPlace_ends {i : Instr} (hi : i ≠ .hlt) (f : Byte → Byte → Byte) (a b : Byte) (s : State) :
    Ends i s (aluInPlace f a b s) := by
  rcases aluInPlace_cases f a b s with ⟨ra, rb, _, _, h⟩ | ⟨v, _, h⟩
  · exact .goesOn _ h hi rfl rfl fun _ => rfl
  · exact .faults _ h (registerIndexRange_code_ne_none v)

/-- Every instruction ends in one of the three ways. -/
theorem exec_ends (i : Instr) (s : State) : Ends i s (exec i s) := by
  cases i with
  | add a b => exact aluInPlace_ends (i := .add a b) nofun aluAdd a b s
  | sub a b => exact aluInPlace_ends (i := .sub a b) nofun aluSub a b s
  | mul a b => exact aluInPlace_ends (i := .mul a b) nofun aluMul a b s
  | div a b =>
    rcases execDiv_cases a b s with ⟨ra, rb, _, _, _, h⟩ | ⟨ra, rb, _, _, _, h⟩ | ⟨v, _, h⟩
    · exact .goesOn _ h nofun rfl rfl fun _ => rfl
    · exact .faults _ h (divideByZero_code_ne_none rb)
    · exact .faults _ h (registerIndexRange_code_ne_none v)
  | cmp a b =>
    rcases execCmp_cases a b s with ⟨ra, rb, _, _, h⟩ | ⟨v, _, h⟩
    · exact .goesOn _ h nofun rfl rfl fun hcmp => absurd rfl (hcmp a b)
    · exact .faults _ h (registerIndexRange_code_ne_none v)
  | ldi a b =>
    rcases execLdi_cases a b s with ⟨ra, _, h⟩ | ⟨_, h⟩
    · exact .goesOn _ h nofun rfl rfl fun _ => rfl
    · exact .faults _ h (registerIndexRange_code_ne_none a)
  | prn a =>
    rcases execPrn_cases a s with ⟨ra, _, h⟩ | ⟨_, h⟩
    · exact .goesOn _ h nofun rfl rfl fun _ => rfl
    · exact .faults _ h (registerIndexRange_code_ne_none a)
  | push a =>
    rcases execPush_cases a s with ⟨ra, _, _, h⟩ | ⟨ra, _, _, h⟩ | ⟨_, h⟩
    · exact .goesOn _ h nofun rfl rfl fun _ => rfl
    · exact .faults _ h (memoryRange_code_ne_none _)
    · exact .faults _ h (registerIndexRange_code_ne_none a)
  | pop a =>
    rcases execPop_cases a s with ⟨ra, _, _, h⟩ | ⟨ra, _, _, h⟩ | ⟨_, h⟩
    · exact .goesOn _ h nofun rfl rfl fun _ => rfl
    · exact .faults _ h (memoryRange_code_ne_none _)
    · exact .faults _ h (registerIndexRange_code_ne_none a)
  | call a =>
    rcases execCall_cases a s with ⟨ra, _, _, _, h⟩ | ⟨ra, _, _, h⟩ | ⟨ra, _, _, _, h⟩ | ⟨_, h⟩
    · exact .goesOn _ h nofun rfl rfl fun _ => rfl
    · exact .faults _ h (memoryRange_code_ne_none _)
    · exact .faults _ h (memoryRange_code_ne_none _)
    · exact .faults _ h (registerIndexRange_code_ne_none a)
  | ret =>
    rcases execRet_cases s with ⟨_, h⟩ | ⟨_, h⟩
    · exact .goesOn _ h nofun rfl rfl fun _ => rfl
    · exact .faults _ h (memoryRange_code_ne_none _)
  | jmp a =>
    rcases execJmp_cases a s with ⟨ra, _, h⟩ | ⟨_, h⟩
    · exact .goesOn _ h nofun rfl rfl fun _ => rfl
    · exact .faults _ h (registerIndexRange_code_ne_none a)
  | jeq a =>
    rcases execJeq_cases a s with ⟨ra, _, _, h⟩ | ⟨ra, _, _, h⟩ | ⟨_, h⟩
    · exact .goesOn _ h nofun rfl rfl fun _ => rfl
    · exact .goesOn _ h nofun rfl rfl fun _ => rfl
    · exact .faults _ h (registerIndexRange_code_ne_none a)
  | jne a =>
    rcases execJne_cases a s with ⟨ra, _, _, h⟩ | ⟨ra, _, _, h⟩ | ⟨_, h⟩
    · exact .goesOn _ h nofun rfl rfl fun _ => rfl
    · exact .goesOn _ h nofun rfl rfl fun _ => rfl
    · exact .faults _ h (registerIndexRange_code_ne_none a)
  | hlt => exact .halts (execHlt_eq s) rfl

/-- Every instruction answers a next state. -/
theorem exec_answers (i : Instr) (s : State) : ∃ t, exec i s = .next t := by
  cases exec_ends i s with
  | goesOn t h => exact ⟨t, h⟩
  | halts h => exact ⟨_, h⟩
  | faults f h => exact ⟨_, h⟩

/-- Only CMP writes `fl`. -/
theorem exec_fl {i : Instr} {s t : State} (h : exec i s = .next t) (hcmp : ∀ a b, i ≠ .cmp a b) :
    t.fl = s.fl := by
  cases exec_ends i s with
  | goesOn u hu _ _ _ hfl => cases h.symm.trans hu; exact hfl hcmp
  | halts hu => cases h.symm.trans hu; rfl
  | faults f hu => cases h.symm.trans hu; rfl

/-- An instruction that changes the fault record leaves `fl`. -/
theorem exec_fl_of_fault {i : Instr} {s t : State} (h : exec i s = .next t) (hf : t.fault ≠ s.fault) :
    t.fl = s.fl := by
  cases exec_ends i s with
  | goesOn u hu _ _ hfault => cases h.symm.trans hu; exact absurd hfault hf
  | halts hu => cases h.symm.trans hu; rfl
  | faults f hu => cases h.symm.trans hu; rfl

/-- From a RUNNING state with no fault, an instruction clears `running` exactly if it is HLT or it faults. -/
theorem exec_running_iff {i : Instr} {s t : State} (h : exec i s = .next t) (hr : s.running = true)
    (hf : s.fault.code = .none) : t.running = false ↔ i = .hlt ∨ t.fault.code ≠ .none := by
  cases exec_ends i s with
  | goesOn u hu hne hrun hfault => cases h.symm.trans hu; simp [hrun, hfault, hr, hf, hne]
  | halts hu hi => cases h.symm.trans hu; simp [hi]
  | faults f hu hc => cases h.symm.trans hu; simp [hc]

/-! ### What a step can end in -/

/-- A fetch that fails reports one of the faults of R120. -/
theorem fetchWith_error_code {m : OpcodeMap} {s : State} {f : FaultStatus}
    (h : fetchWith m s = .error f) : f.code ≠ .none := by
  rcases fetchWith_error h with ⟨_, rfl⟩ | ⟨rfl, _⟩ | rfl | ⟨rfl, _⟩ <;> nofun

/-- Everything a step to `t` can be: nothing, the fetched instruction, or the fault of the fetch. -/
theorem step_eq_next {s t : State} (h : step s = .next t) :
    (s.running = false ∧ t = s) ∨
    (s.running = true ∧ ∃ i, fetch s = .ok i ∧ exec i s = .next t) ∨
    (s.running = true ∧ ∃ f, fetch s = .error f ∧ f.code ≠ .none ∧ t = s.takeFault f) := by
  rcases stepWith_cases opcodeMap s with ⟨hr, hs⟩ | ⟨hr, i, hi, hs⟩ | ⟨hr, f, hf, hs⟩
  · cases h.symm.trans hs; exact .inl ⟨hr, rfl⟩
  · exact .inr (.inl ⟨hr, i, hi, hs.symm.trans h⟩)
  · cases h.symm.trans hs; exact .inr (.inr ⟨hr, f, hf, fetchWith_error_code hf, rfl⟩)

/-- A run of a HALTED machine is over (R79). -/
theorem runFor_of_halted (n : Nat) {s : State} (h : s.running = false) : runFor n s = .next s := by
  cases n with
  | zero => rfl
  | succ n => simp [runFor, h]

/-- A run of a RUNNING machine makes its next step (R79). -/
theorem runFor_succ_of_running (n : Nat) {s t : State} (hr : s.running = true) (h : step s = .next t) :
    runFor (n + 1) s = runFor n t := by
  simp [runFor, hr, h]

/-! ### An update that no instruction observes -/

/-- `u` changes nothing that a meaning reads, `fl` apart, and may be made before or after each of the
operations that meanings are made of, `setFl` apart. -/
structure Unobserved (u : State → State) : Prop where
  reg : ∀ s r, (u s).reg r = s.reg r
  pc : ∀ s, (u s).pc = s.pc
  mem : ∀ s, (u s).mem = s.mem
  setReg : ∀ s r v, u (s.setReg r v) = (u s).setReg r v
  setPc : ∀ s t, u (s.setPc t) = (u s).setPc t
  advance : ∀ s w, u (s.advance w) = (u s).advance w
  setMem : ∀ s m, u (s.setMem m) = (u s).setMem m
  emit : ∀ s v, u (s.emit v) = (u s).emit v
  halt : ∀ s, u s.halt = (u s).halt
  takeFault : ∀ s f, u (s.takeFault f) = (u s).takeFault f

namespace Unobserved

variable {u : State → State} (hu : Unobserved u)
include hu

/-- The end of a meaning carries the update through, whether it commits or faults. -/
theorem commit {s t : State} {e : Except FaultStatus State} (h : Machine.commit s e = .next t) :
    Machine.commit (u s) (u <$> e) = .next (u t) := by
  rcases commit_eq_next.mp h with rfl | ⟨f, rfl, rfl⟩
  · rfl
  · exact congrArg _ (hu.takeFault s f).symm

theorem sp (s : State) : (u s).sp = s.sp := hu.reg s _

theorem setSp (s : State) (v : Byte) : u (s.setSp v) = (u s).setSp v := hu.setReg s _ v

/-- A push carries the update through when the pushed byte does not depend on it. -/
theorem pushByte (s : State) {v : State → Byte} (hv : ∀ s, v (u s) = v s) :
    Machine.pushByte (u s) v = u <$> Machine.pushByte s v := by
  by_cases h : s.sp = 0
  · rw [pushByte_error ((hu.sp s).trans h), pushByte_error h, Except.map_error]
  · rw [pushByte_ok (by rwa [hu.sp]), pushByte_ok h, Except.map_ok, hu.setMem, hu.setSp, hu.sp, hu.mem,
      ← hu.setSp, hv]

end Unobserved

/-- ADD, SUB and MUL do the same under an unobserved update. -/
theorem aluInPlace_update {u : State → State} (hu : Unobserved u) {f : Byte → Byte → Byte} {a b : Byte}
    {s t : State} (h : aluInPlace f a b s = .next t) : aluInPlace f a b (u s) = .next (u t) := by
  simpa [aluInPlace, hu.reg, hu.setReg, hu.advance] using hu.commit h

/-- An instruction does the same under an unobserved update, CMP if the update leaves what CMP writes and JEQ and
JNE if it leaves the E flag. -/
theorem exec_update {u : State → State} (hu : Unobserved u) {i : Instr} {s t : State}
    (hcmp : (∃ a b, i = .cmp a b) → ∀ s v, u (s.setFl v) = (u s).setFl v)
    (hjump : ((∃ a, i = .jeq a) ∨ ∃ a, i = .jne a) → equalFlag (u s).fl = equalFlag s.fl)
    (h : exec i s = .next t) : exec i (u s) = .next (u t) := by
  cases i with
  | add a b => exact aluInPlace_update hu h
  | sub a b => exact aluInPlace_update hu h
  | mul a b => exact aluInPlace_update hu h
  | div a b => simpa [exec, execDiv, apply_ite, hu.reg, hu.setReg, hu.advance] using hu.commit h
  | cmp a b => simpa [exec, execCmp, hu.reg, hcmp ⟨a, b, rfl⟩, hu.advance] using hu.commit h
  | ldi a b => simpa [exec, execLdi, hu.setReg, hu.advance] using hu.commit h
  | prn a => simpa [exec, execPrn, hu.reg, hu.emit, hu.advance] using hu.commit h
  | push a => simpa [exec, execPush, hu.reg, hu.pushByte, hu.advance] using hu.commit h
  | pop a => simpa [exec, execPop, hu.sp, hu.mem, hu.setReg, hu.setSp, hu.advance] using hu.commit h
  | call a => simpa [exec, execCall, hu.reg, hu.pc, hu.pushByte, hu.setPc] using hu.commit h
  | ret =>
    replace h : execRet s = .next t := h
    simpa [exec, execRet, hu.sp, hu.mem, hu.setSp, hu.setPc] using hu.commit h
  | jmp a => simpa [exec, execJmp, hu.reg, hu.setPc] using hu.commit h
  | jeq a =>
    have he := hjump (.inl ⟨a, rfl⟩)
    simpa [exec, execJeq, apply_ite, he, hu.reg, hu.setPc, hu.advance] using hu.commit h
  | jne a =>
    have he := hjump (.inr ⟨a, rfl⟩)
    simpa [exec, execJne, apply_ite, he, hu.reg, hu.setPc, hu.advance] using hu.commit h
  | hlt => cases h; exact congrArg _ (hu.halt s).symm

/-! ### The running flag -/

/-- Making the machine HALTED is unobserved: no instruction reads `running`. -/
theorem unobserved_halt : Unobserved State.halt := by
  constructor <;> intros <;> rfl

/-- A step never makes a HALTED machine RUNNING. -/
theorem step_running_of_halted {s t : State} (h : step s = .next t) (hr : s.running = false) :
    t.running = false := by
  rcases step_eq_next h with ⟨_, rfl⟩ | ⟨hr', _⟩ | ⟨hr', _⟩
  · exact hr
  · simp [hr] at hr'
  · simp [hr] at hr'

/-- From a RUNNING state with no fault, a step clears `running` exactly if it ran HLT or recorded a fault. -/
theorem step_running_iff {s t : State} (h : step s = .next t) (hr : s.running = true)
    (hf : s.fault.code = .none) :
    t.running = false ↔ fetch s = .ok .hlt ∨ t.fault.code ≠ .none := by
  rcases step_eq_next h with ⟨hr', _⟩ | ⟨_, i, hi, hexec⟩ | ⟨_, f, _, hc, rfl⟩
  · simp [hr] at hr'
  · simp [hi, exec_running_iff hexec hr hf]
  · simp [hc]

/-- An instruction does the same in states that differ in `running`, that field apart. -/
theorem exec_of_running_of_halted (i : Instr) (s : State) :
    ∃ t, exec i { s with running := true } = .next t ∧
      exec i { s with running := false } = .next { t with running := false } := by
  obtain ⟨t, h⟩ := exec_answers i { s with running := true }
  exact ⟨t, h,
    exec_update (s := { s with running := true }) unobserved_halt (fun _ _ _ => rfl) (fun _ => rfl) h⟩

/-- Settles O28: what a step does to `running` is read off the ways an instruction ends, and that nothing reads
it is that halting is unobserved. -/
theorem runningFlagFollowsItsRule : Obligations.RunningFlagFollowsItsRule :=
  ⟨rfl, fun _ _ => step_running_of_halted, fun _ _ => step_running_iff,
    fun n _ _ => runFor_succ_of_running n, fun n _ => runFor_of_halted n, exec_of_running_of_halted⟩

/-! ### The flags register -/

/-- Changing `fl` is unobserved, but for CMP, JEQ and JNE. -/
theorem unobserved_setFl (v : Byte) : Unobserved (State.setFl · v) := by
  constructor <;> intros <;> rfl

/-- CMP of two registers, whatever `fl` was (R85). -/
theorem exec_cmp_regByte (ra rb : RegIndex) (s : State) : exec (.cmp (regByte ra) (regByte rb)) s =
    .next ((s.setFl (compareFlags (s.reg ra) (s.reg rb))).advance 3) := by
  simp [exec, execCmp, bind, Except.bind]

/-- A comparison gives exactly one flag. -/
theorem compareFlags_cases (u v : Byte) :
    compareFlags u v = flagL ∨ compareFlags u v = flagG ∨ compareFlags u v = flagE := by
  rcases Nat.lt_trichotomy u.toNat v.toNat with h | h | h
  · exact .inl (if_pos h)
  · exact .inr (.inr (by simp [compareFlags, h]))
  · exact .inr (.inl (by simp [compareFlags, h, Nat.le_of_lt h]))

/-- A step that changes the fault record leaves `fl`. -/
theorem step_fl_of_fault {s t : State} (h : step s = .next t) (hf : t.fault ≠ s.fault) : t.fl = s.fl := by
  rcases step_eq_next h with ⟨_, rfl⟩ | ⟨_, i, _, hexec⟩ | ⟨_, f, _, _, rfl⟩
  · rfl
  · exact exec_fl_of_fault hexec hf
  · rfl

/-- An instruction other than CMP, JEQ and JNE does the same whatever `fl` holds. -/
theorem exec_setFl {i : Instr} {s t : State} (v : Byte) (h : exec i s = .next t) (hcmp : ∀ a b, i ≠ .cmp a b)
    (hjeq : ∀ a, i ≠ .jeq a) (hjne : ∀ a, i ≠ .jne a) : exec i (s.setFl v) = .next (t.setFl v) := by
  refine exec_update (unobserved_setFl v) ?_ ?_ h
  · rintro ⟨a, b, hi⟩
    exact absurd hi (hcmp a b)
  · rintro (⟨a, hi⟩ | ⟨a, hi⟩)
    · exact absurd hi (hjeq a)
    · exact absurd hi (hjne a)

/-- JEQ and JNE do the same for every value of `fl` with the same E. -/
theorem exec_setFl_of_equalFlag {i : Instr} {s t : State} (v : Byte)
    (hi : (∃ a, i = .jeq a) ∨ ∃ a, i = .jne a) (hv : equalFlag v = equalFlag s.fl) (h : exec i s = .next t) :
    exec i (s.setFl v) = .next (t.setFl v) := by
  refine exec_update (unobserved_setFl v) ?_ (fun _ => hv) h
  rintro ⟨a, b, rfl⟩
  simp at hi

/-- Settles O30: who writes `fl` is read off the ways an instruction ends and CMP's own equation, and who reads
it off the instructions for which changing `fl` is unobserved. -/
theorem onlyCompareWritesAndJumpsReadFlags : Obligations.OnlyCompareWritesAndJumpsReadFlags :=
  ⟨fun _ _ _ => exec_fl,
    fun ra rb s => ⟨_, exec_cmp_regByte ra rb s, compareFlags_cases _ _, fun _ => exec_cmp_regByte ra rb _⟩,
    fun _ _ => step_fl_of_fault, fun _ _ _ v => exec_setFl v, fun _ _ _ v => exec_setFl_of_equalFlag v⟩

end Sys2Proof.Machine
end

section
/-!
SUPPORT. The proof of the family Dispatch: a step is the pseudocode of spec/40_dispatch.md R70. The model fetches
a window of bytes and decodes it; R70 reads byte after byte. The two meet in the length of the window: a
rejection as truncated is exactly a read of address 256, the first beyond memory (R72, R74).
-/

namespace Sys2Proof

/-! ### The decoder, by the class of the opcode byte -/

section
variable {m : OpcodeMap} {ir : Byte}

theorem decodeWith_unknown (h : classify m ir = .unknown) (rest : List Byte) :
    decodeWith m (ir :: rest) = .error (.unknown ir) := by
  simp only [decodeWith, h]

theorem decodeWith_aluUndefined (h : classify m ir = .aluUndefined) (a b : Byte) (rest : List Byte) :
    decodeWith m (ir :: a :: b :: rest) = .error (.aluUndefined ir) := by
  simp only [decodeWith, h]

theorem decodeWith_aluUndefined_truncated (h : classify m ir = .aluUndefined) {rest : List Byte}
    (hl : rest.length < 2) : decodeWith m (ir :: rest) = .error .truncated := by
  simp only [decodeWith, h]
  split
  · simp only [List.length_cons] at hl; omega
  · rfl

variable {k : Mnemonic} (h : classify m ir = .known k)
include h

theorem decodeWith_known_zero (hk : k.operandCount = 0) (rest : List Byte) :
    decodeWith m (ir :: rest) = .ok (k.instr 0 0, rest) := by
  simp only [decodeWith, h, hk]

theorem decodeWith_known_one (hk : k.operandCount = 1) (a : Byte) (rest : List Byte) :
    decodeWith m (ir :: a :: rest) = .ok (k.instr a 0, rest) := by
  simp only [decodeWith, h, hk]

theorem decodeWith_known_two (hk : k.operandCount = 2) (a b : Byte) (rest : List Byte) :
    decodeWith m (ir :: a :: b :: rest) = .ok (k.instr a b, rest) := by
  simp only [decodeWith, h, hk]

theorem decodeWith_known_truncated {rest : List Byte} (hl : rest.length < k.operandCount) :
    decodeWith m (ir :: rest) = .error .truncated := by
  simp only [decodeWith, h]
  split
  · omega
  · simp only [List.length_cons] at hl; omega
  · simp only [List.length_cons] at hl; omega
  · rfl

end

end Sys2Proof

namespace Sys2Proof.Machine

/-! ### Reads and the fetch window -/

theorem memRead_inside (s : State) {k : Nat} (h : k < 256) : memRead s k = .ok (s.mem.read k) :=
  if_pos ⟨Int.natCast_nonneg k, Int.ofNat_lt.mpr h⟩

theorem memRead_beyond (s : State) {k : Nat} (h : 256 ≤ k) : memRead s k = .error (memoryRange k) :=
  if_neg fun hk => Nat.not_lt.mpr h (Int.ofNat_lt.mp hk.2)

/-- The first address beyond memory is the one an operand read fails at (R72, R74). -/
theorem memRead_end (s : State) {k : Nat} (h : k = 256) : memRead s k = .error (memoryRange 256) :=
  h ▸ memRead_beyond s (Nat.le_refl 256)

/-- A window is cut off at the end of memory. -/
theorem Memory.length_window (m : Memory) (k n : Nat) : (m.window k n).length = min n (256 - k) := by
  induction n generalizing k with
  | zero => simp [Memory.window]
  | succ n ih =>
    by_cases h : k < 256
    · rw [Memory.window_succ m n h, List.length_cons, ih]; omega
    · rw [Memory.window_beyond m (n + 1) (Nat.not_lt.mp h), List.length_nil]; omega

/-! ### The fetch, by the class of the opcode byte and the end of memory (R71 to R74) -/

section
variable {m : OpcodeMap} {s : State}

theorem fetchWith_of_decodeWith_ok {i : Instr} {rest : List Byte}
    (h : decodeWith m (s.mem.window s.pc.toNat 3) = .ok (i, rest)) : fetchWith m s = .ok i := by
  simp only [fetchWith, h]

theorem fetchWith_of_decodeWith_error {e : DecodeError}
    (h : decodeWith m (s.mem.window s.pc.toNat 3) = .error e) :
    fetchWith m s = .error (fetchFault s.pc e) := by
  simp only [fetchWith, h]

theorem fetchWith_beyond (hp : 256 ≤ s.pc.toNat) : fetchWith m s = .error (memoryRange s.pc.toNat) :=
  fetchWith_of_decodeWith_error (e := .noOpcode) (by rw [Memory.window_beyond _ _ hp]; rfl)

theorem fetchWith_unknown (hp : s.pc.toNat < 256) (hc : classify m (s.mem.read s.pc.toNat) = .unknown) :
    fetchWith m s = .error (unknownInstruction (s.mem.read s.pc.toNat)) :=
  fetchWith_of_decodeWith_error (by rw [Memory.window_succ _ _ hp]; exact decodeWith_unknown hc _)

theorem fetchWith_aluUndefined (hp : s.pc.toNat + 2 < 256)
    (hc : classify m (s.mem.read s.pc.toNat) = .aluUndefined) :
    fetchWith m s = .error (aluUndefinedOp (s.mem.read s.pc.toNat)) := by
  apply fetchWith_of_decodeWith_error (e := .aluUndefined _)
  rw [Memory.window_succ _ _ (by omega), Memory.window_succ _ _ (by omega), Memory.window_succ _ _ hp]
  exact decodeWith_aluUndefined hc _ _ _

theorem fetchWith_aluUndefined_truncated (hp : s.pc.toNat < 256) (ht : 256 ≤ s.pc.toNat + 2)
    (hc : classify m (s.mem.read s.pc.toNat) = .aluUndefined) :
    fetchWith m s = .error (memoryRange 256) := by
  apply fetchWith_of_decodeWith_error (e := .truncated)
  rw [Memory.window_succ _ _ hp]
  exact decodeWith_aluUndefined_truncated hc (by rw [Memory.length_window]; omega)

variable {k : Mnemonic}

theorem fetchWith_known_zero (hp : s.pc.toNat < 256) (hc : classify m (s.mem.read s.pc.toNat) = .known k)
    (hk : k.operandCount = 0) : fetchWith m s = .ok (k.instr 0 0) :=
  fetchWith_of_decodeWith_ok (by rw [Memory.window_succ _ _ hp]; exact decodeWith_known_zero hc hk _)

theorem fetchWith_known_one (hp : s.pc.toNat + 1 < 256)
    (hc : classify m (s.mem.read s.pc.toNat) = .known k) (hk : k.operandCount = 1) :
    fetchWith m s = .ok (k.instr (s.mem.read (s.pc.toNat + 1)) 0) := by
  apply fetchWith_of_decodeWith_ok
  rw [Memory.window_succ _ _ (by omega), Memory.window_succ _ _ hp]
  exact decodeWith_known_one hc hk _ _

theorem fetchWith_known_two (hp : s.pc.toNat + 2 < 256)
    (hc : classify m (s.mem.read s.pc.toNat) = .known k) (hk : k.operandCount = 2) :
    fetchWith m s = .ok (k.instr (s.mem.read (s.pc.toNat + 1)) (s.mem.read (s.pc.toNat + 2))) := by
  apply fetchWith_of_decodeWith_ok
  rw [Memory.window_succ _ _ (by omega), Memory.window_succ _ _ (by omega), Memory.window_succ _ _ hp]
  exact decodeWith_known_two hc hk _ _ _

theorem fetchWith_known_truncated (hp : s.pc.toNat < 256) (ht : 256 ≤ s.pc.toNat + k.operandCount)
    (hc : classify m (s.mem.read s.pc.toNat) = .known k) : fetchWith m s = .error (memoryRange 256) := by
  have hk := Laws.Length.operandCount_le k
  apply fetchWith_of_decodeWith_error (e := .truncated)
  rw [Memory.window_succ _ _ hp]
  exact decodeWith_known_truncated hc (by rw [Memory.length_window]; omega)

/-! ### The step of a RUNNING machine -/

variable (hr : s.running = true)
include hr

theorem stepWith_of_fetchWith_ok {i : Instr} (h : fetchWith m s = .ok i) : stepWith m s = exec i s := by
  simp only [stepWith, hr, h, if_true]

theorem stepWith_of_fetchWith_error {f : FaultStatus} (h : fetchWith m s = .error f) :
    stepWith m s = .next (s.takeFault f) := by
  simp only [stepWith, hr, h, if_true]

end

/-- The two operand reads at `k + 1` and `k + 2`: both are in memory, or the second is the first address beyond
it, or the first is. -/
theorem operand_reads_cases (s : State) {k : Nat} (h : k < 256) :
    (k + 2 < 256 ∧ memRead s (k + 1 : Nat) = .ok (s.mem.read (k + 1)) ∧
      memRead s (k + 2 : Nat) = .ok (s.mem.read (k + 2))) ∨
    (k + 2 = 256 ∧ memRead s (k + 1 : Nat) = .ok (s.mem.read (k + 1)) ∧
      memRead s (k + 2 : Nat) = .error (memoryRange 256)) ∨
    (k + 1 = 256 ∧ memRead s (k + 1 : Nat) = .error (memoryRange 256)) := by
  obtain h2 | h2 | h1 : k + 2 < 256 ∨ k + 2 = 256 ∨ k + 1 = 256 := by omega
  · exact .inl ⟨h2, memRead_inside s (by omega), memRead_inside s h2⟩
  · exact .inr (.inl ⟨h2, memRead_inside s (by omega), memRead_end s h2⟩)
  · exact .inr (.inr ⟨h1, memRead_end s h1⟩)

/-- Settles O15: by where memory ends, the class of the opcode byte and the operand count, the fetch gives what the
reads of R70 give. -/
theorem stepFollowsTheFetchPseudocode : Obligations.StepFollowsTheFetchPseudocode := by
  intro m s hr
  by_cases hp : s.pc.toNat < 256
  case neg =>
    rw [memRead_beyond s (Nat.not_lt.mp hp)]
    exact stepWith_of_fetchWith_error hr (fetchWith_beyond (Nat.not_lt.mp hp))
  rw [memRead_inside s hp]
  dsimp only
  cases hc : classify m (s.mem.read s.pc.toNat) with
  | unknown => exact stepWith_of_fetchWith_error hr (fetchWith_unknown hp hc)
  | aluUndefined =>
    rcases operand_reads_cases s hp with ⟨h2, ha, hb⟩ | ⟨h2, ha, hb⟩ | ⟨h1, ha⟩
    · simp only [ha, hb]
      exact stepWith_of_fetchWith_error hr (fetchWith_aluUndefined h2 hc)
    · simp only [ha, hb]
      exact stepWith_of_fetchWith_error hr (fetchWith_aluUndefined_truncated hp (by omega) hc)
    · simp only [ha]
      exact stepWith_of_fetchWith_error hr (fetchWith_aluUndefined_truncated hp (by omega) hc)
  | known k =>
    obtain hk | hk | hk : k.operandCount = 0 ∨ k.operandCount = 1 ∨ k.operandCount = 2 := by
      have := Laws.Length.operandCount_le k
      omega
    · simp only [hk, if_true]
      exact stepWith_of_fetchWith_ok hr (fetchWith_known_zero hp hc hk)
    · by_cases h1 : s.pc.toNat + 1 < 256
      · simp only [hk, memRead_inside s h1]
        exact stepWith_of_fetchWith_ok hr (fetchWith_known_one h1 hc hk)
      · simp only [hk, memRead_end s (show s.pc.toNat + 1 = 256 by omega)]
        exact stepWith_of_fetchWith_error hr (fetchWith_known_truncated hp (by omega) hc)
    · rcases operand_reads_cases s hp with ⟨h2, ha, hb⟩ | ⟨h2, ha, hb⟩ | ⟨h1, ha⟩
      · simp only [hk, ha, hb]
        exact stepWith_of_fetchWith_ok hr (fetchWith_known_two h2 hc hk)
      · simp only [hk, ha, hb]
        exact stepWith_of_fetchWith_error hr (fetchWith_known_truncated hp (by omega) hc)
      · simp only [hk, ha]
        exact stepWith_of_fetchWith_error hr (fetchWith_known_truncated hp (by omega) hc)

end Sys2Proof.Machine
end

section
/-!
SUPPORT. The proof of the family Exceptions: an opcode byte with bit 5 set that is no ALU operation
(spec/60_exceptions.md R123). The fetch reports it once both operand bytes are in memory.
-/

namespace Sys2Proof

/-- R56: bit 5 set and no match in the ALU table. -/
theorem classify_aluUndefined {m : OpcodeMap} {ir : Byte} (h5 : ir.getLsbD 5 = true)
    (hne : ∀ k ∈ aluTable, m k ≠ ir) : classify m ir = .aluUndefined := by
  have hfind : aluTable.find? (fun k => m k == ir) = none :=
    List.find?_eq_none.mpr fun k hk => by simpa using hne k hk
  simp only [classify, h5, if_true, hfind]

end Sys2Proof

namespace Sys2Proof.Machine

/-- Settles O25: by whether the second operand byte, at pc + 2, is in memory. -/
theorem undefinedAluOpcodeFaults : Obligations.UndefinedAluOpcodeFaults := by
  intro m s hr hpc h5 hne
  have hc := classify_aluUndefined h5 hne
  by_cases h2 : s.pc.toNat ≤ 253
  · rw [if_pos h2]
    exact stepWith_of_fetchWith_error hr (fetchWith_aluUndefined (by omega) hc)
  · rw [if_neg h2]
    exact stepWith_of_fetchWith_error hr (fetchWith_aluUndefined_truncated (by omega) (by omega) hc)

end Sys2Proof.Machine
end

section
/-!
SUPPORT. The proofs about the decoder and the encoder (spec/30_encoding.md). Both are read through the operand
count of a name: an instruction is its name with that many operand bytes, and the decoder takes that many.
-/

namespace Sys2Proof

/-! ### An instruction is its name and its operand bytes -/

/-- An instruction by how many operand bytes it has (R50). -/
theorem Instr.operands_cases (i : Instr) :
    (i.mnemonic.operandCount = 0 ∧ i.operands = [] ∧ i.mnemonic.instr 0 0 = i) ∨
    (∃ a, i.mnemonic.operandCount = 1 ∧ i.operands = [a] ∧ i.mnemonic.instr a 0 = i) ∨
    (∃ a b, i.mnemonic.operandCount = 2 ∧ i.operands = [a, b] ∧ i.mnemonic.instr a b = i) := by
  cases i with
  | ret | hlt => exact .inl ⟨rfl, rfl, rfl⟩
  | prn a | push a | pop a | call a | jmp a | jeq a | jne a => exact .inr (.inl ⟨a, rfl, rfl, rfl⟩)
  | add a b | sub a b | mul a b | div a b | cmp a b | ldi a b => exact .inr (.inr ⟨a, b, rfl, rfl, rfl⟩)

/-- The operand bytes an instruction is built with are those its name has room for. -/
theorem Mnemonic.operands_instr (k : Mnemonic) (a b : Byte) :
    (k.instr a b).operands = [a, b].take k.operandCount := by
  cases k <;> rfl

/-- An instruction with no operand byte ignores both it is built with. -/
theorem Mnemonic.instr_of_count_zero {k : Mnemonic} (h : k.operandCount = 0) (a b : Byte) :
    k.instr 0 0 = k.instr a b := by
  cases k with
  | ret | hlt => rfl
  | _ => cases h

/-- An instruction with one operand byte ignores the second it is built with. -/
theorem Mnemonic.instr_of_count_one {k : Mnemonic} (h : k.operandCount = 1) (a b : Byte) :
    k.instr a 0 = k.instr a b := by
  cases k with
  | prn | push | pop | call | jmp | jeq | jne => rfl
  | _ => cases h

theorem Mnemonic.operandCount_cases (k : Mnemonic) :
    k.operandCount = 0 ∨ k.operandCount = 1 ∨ k.operandCount = 2 := by
  have := Laws.Length.operandCount_le k
  omega

/-! ### Decoding and encoding are inverse -/

/-- Settles O6: by the number of operand bytes, the decoder takes the bytes that the encoder wrote. -/
theorem decodeEncodeAgree : Obligations.DecodeEncodeAgree := by
  intro m hm i rest
  have hc := classify_map hm i.mnemonic
  rcases i.operands_cases with ⟨hk, ho, hi⟩ | ⟨a, hk, ho, hi⟩ | ⟨a, b, hk, ho, hi⟩ <;>
    rw [encodeWith, ho]
  · exact (decodeWith_known_zero hc hk rest).trans (by rw [hi])
  · exact (decodeWith_known_one hc hk a rest).trans (by rw [hi])
  · exact (decodeWith_known_two hc hk a b rest).trans (by rw [hi])

/-- Bytes that decode start with the opcode byte of a name, and it has as many operand bytes as the name takes. -/
theorem decodeWith_ok {m : OpcodeMap} {bytes rest : List Byte} {i : Instr}
    (h : decodeWith m bytes = .ok (i, rest)) : ∃ k a b, i = k.instr a b ∧
      bytes = m k :: [a, b].take k.operandCount ++ rest := by
  cases bytes with
  | nil => cases h
  | cons ir bytes =>
    cases hc : classify m ir with
    | unknown => cases (decodeWith_unknown hc bytes).symm.trans h
    | aluUndefined =>
      match bytes with
      | [] => cases (decodeWith_aluUndefined_truncated hc (by simp)).symm.trans h
      | [_] => cases (decodeWith_aluUndefined_truncated hc (by simp)).symm.trans h
      | a :: b :: bytes => cases (decodeWith_aluUndefined hc a b bytes).symm.trans h
    | known k =>
      cases classify_known hc
      by_cases hl : bytes.length < k.operandCount
      · cases (decodeWith_known_truncated hc hl).symm.trans h
      rcases k.operandCount_cases with hk | hk | hk <;> rw [hk] at hl
      · cases (decodeWith_known_zero hc hk bytes).symm.trans h
        exact ⟨k, 0, 0, rfl, by simp [hk]⟩
      · match bytes with
        | [] => exact absurd Nat.one_pos hl
        | a :: bytes =>
          cases (decodeWith_known_one hc hk a bytes).symm.trans h
          exact ⟨k, a, 0, rfl, by simp [hk]⟩
      · match bytes with
        | [] => exact absurd (Nat.succ_pos 1) hl
        | [_] => exact absurd (Nat.lt_succ_self 1) hl
        | a :: b :: bytes =>
          cases (decodeWith_known_two hc hk a b bytes).symm.trans h
          exact ⟨k, a, b, rfl, by simp [hk]⟩

/-- Settles O7: the bytes that decode are a name's opcode byte and its operand bytes, which encode what was built
of them. -/
theorem decodedBytesAreTheEncoding : Obligations.DecodedBytesAreTheEncoding := by
  intro m bytes rest i h
  obtain ⟨k, a, b, rfl, rfl⟩ := decodeWith_ok h
  rw [encodeWith, Mnemonic.mnemonic_instr, Mnemonic.operands_instr]

/-! ### This hardware's opcode map -/

/-- Settles O5: R53's fifteen values, checked one by one. -/
theorem hardwareOpcodeMapIsLegal : Obligations.HardwareOpcodeMapIsLegal := by
  unfold Obligations.HardwareOpcodeMapIsLegal
  decide

/-- Under a legal map a byte is classified as an instruction exactly if it is that instruction's opcode byte. -/
theorem classify_eq_known_iff {m : OpcodeMap} (h : m.Legal) {ir : Byte} {k : Mnemonic} :
    classify m ir = .known k ↔ ir = m k :=
  ⟨fun hc => (classify_known hc).symm, fun e => e ▸ classify_map h k⟩

/-- A byte is an undefined ALU operation exactly if its bit 5 is set and the ALU table does not have it (R56). -/
theorem classify_eq_aluUndefined_iff {m : OpcodeMap} {ir : Byte} :
    classify m ir = .aluUndefined ↔ ir.getLsbD 5 = true ∧ ir ∉ aluTable.map m := by
  constructor
  · intro h
    unfold classify at h
    split at h <;> split at h <;> simp only [reduceCtorEq] at h
    next h5 _ hnone => exact ⟨h5, by simpa using hnone⟩
  · rintro ⟨h5, hne⟩
    exact classify_aluUndefined h5 fun k hk e => hne (List.mem_map.mpr ⟨k, hk, e⟩)

/-- R55: bit 5 clear and no match in the control table. -/
theorem classify_unknown {m : OpcodeMap} {ir : Byte} (h5 : ir.getLsbD 5 = false)
    (hne : ∀ k ∈ controlTable, m k ≠ ir) : classify m ir = .unknown := by
  have hfind : controlTable.find? (fun k => m k == ir) = none :=
    List.find?_eq_none.mpr fun k hk => by simpa using hne k hk
  simp only [classify, h5, Bool.false_eq_true, if_false, hfind]

/-- A byte is unknown exactly if its bit 5 is clear and the control table does not have it (R55). -/
theorem classify_eq_unknown_iff {m : OpcodeMap} {ir : Byte} :
    classify m ir = .unknown ↔ ir.getLsbD 5 = false ∧ ir ∉ controlTable.map m := by
  constructor
  · intro h
    unfold classify at h
    split at h <;> split at h <;> simp only [reduceCtorEq] at h
    next h5 _ hnone => exact ⟨by simpa using h5, by simpa using hnone⟩
  · rintro ⟨h5, hne⟩
    exact classify_unknown h5 fun k hk e => hne (List.mem_map.mpr ⟨k, hk, e⟩)

/-- Settles O8: the classes of a byte under any map, at R53's values. -/
theorem opcodeBytesFallInFourClasses : Obligations.OpcodeBytesFallInFourClasses := by
  refine fun ir => ⟨fun k => ?_, classify_eq_aluUndefined_iff, classify_eq_unknown_iff⟩
  rw [classify_eq_known_iff hardwareOpcodeMapIsLegal]
  cases k <;> simp [opcodeMap]

/-- Settles O9: each word is the encoding of its instruction. -/
theorem wordsFromTheSpecDecode : Obligations.WordsFromTheSpecDecode := fun a b rest =>
  have agree (i : Instr) : decode (encode i ++ rest) = .ok (i, rest) :=
    decodeEncodeAgree opcodeMap hardwareOpcodeMapIsLegal i rest
  ⟨agree (.add a b), agree (.sub a b), agree (.mul a b), agree (.div a b), agree (.cmp a b), agree (.ldi a b),
    agree (.prn a), agree (.push a), agree (.pop a), agree (.call a), agree .ret, agree (.jmp a), agree (.jeq a),
    agree (.jne a), agree .hlt⟩

/-- Bits 7 and 6 of this hardware's opcode bytes are the operand count (D2). -/
theorem operandCount_eq_bits (k : Mnemonic) : k.operandCount = ((opcodeMap k).extractLsb 7 6).toNat := by
  cases k <;> rfl

/-- Settles O10: the length of an encoding is its instruction's width, 1 and the operand count. -/
theorem lengthIsReadFromTheOpcodeByte : Obligations.LengthIsReadFromTheOpcodeByte := by
  intro i
  obtain ⟨hlen, _, hle⟩ := Laws.Length.of_any i opcodeMap
  refine ⟨opcodeMap i.mnemonic, i.operands, rfl, ?_, ?_⟩
  · rw [encode, hlen, Instr.width, operandCount_eq_bits]
  · rwa [encode, hlen]

end Sys2Proof
end

section
/-!
SUPPORT. Every instruction's meaning as one equation: an instruction takes the fault that `execFault` names, and
where it names none it answers `effect`, a total function of the instruction and the state. What an instruction
changes, leaves unchanged and depends on is then read off `effect` and `execFault`.
-/

namespace Sys2Proof.Machine

/-! ### Registers as operands name them -/

/-- The register an operand byte stands for, once the index check has passed it (R75). -/
def opReg (v : Byte) : RegIndex :=
  Fin.ofNat 8 v.toNat

@[simp] theorem opReg_regByte (r : RegIndex) : opReg (regByte r) = r := by
  rw [opReg, toNat_regByte]
  exact Fin.ofNat_val_eq_self r

@[simp] theorem val_le_seven (r : RegIndex) : r.val ≤ 7 := by omega

theorem regByte_eq_seven (r : RegIndex) : regByte r = 7 ↔ r = 7 := by
  revert r; decide

theorem sp_eq_reg (s : State) : s.sp = s.reg 7 := rfl

/-! ### A push -/

/-- The state with the byte `v` pushed: stored at the decremented stack pointer. -/
def State.push (s : State) (v : Byte) : State :=
  (s.setReg 7 (s.reg 7 - 1)).setMem (s.mem.write (s.reg 7 - 1).toNat v)

theorem pushed_eq_push (s : State) (v : State → Byte) :
    pushed s v = s.push (v (s.setReg 7 (s.reg 7 - 1))) := rfl

@[simp] theorem State.push_mem (s : State) (v : Byte) :
    (s.push v).mem = s.mem.write (s.reg 7 - 1).toNat v := rfl

@[simp] theorem State.push_reg_seven (s : State) (v : Byte) : (s.push v).reg 7 = s.reg 7 - 1 :=
  State.reg_setReg_self s 7 _

@[simp] theorem State.push_reg_ne (s : State) (v : Byte) {q : RegIndex} (h : q ≠ 7) :
    (s.push v).reg q = s.reg q :=
  State.reg_setReg_ne s _ h

/-- The pushed byte stands at the new stack pointer. -/
theorem State.push_read (s : State) (v : Byte) (h : s.reg 7 ≠ 0) :
    (s.push v).mem.read ((s.reg 7).toNat - 1) = v := by
  rw [← toNat_sub_one h]
  exact Memory.read_write_self _ _ v

/-- A push leaves every other address. -/
theorem State.push_read_ne (s : State) (v : Byte) (h : s.reg 7 ≠ 0) {x : Nat} (hx : x ≠ (s.reg 7).toNat - 1) :
    (s.push v).mem.read x = s.mem.read x := by
  rw [← toNat_sub_one h] at hx
  exact Memory.read_write_ne _ v hx

/-! ### The effect of an instruction that does not fault -/

/-- The state after an instruction whose own checks and index checks all pass. -/
def effect (i : Instr) (s : State) : State :=
  match i with
  | .add a b => (s.setReg (opReg a) (aluAdd (s.reg (opReg a)) (s.reg (opReg b)))).advance 3
  | .sub a b => (s.setReg (opReg a) (aluSub (s.reg (opReg a)) (s.reg (opReg b)))).advance 3
  | .mul a b => (s.setReg (opReg a) (aluMul (s.reg (opReg a)) (s.reg (opReg b)))).advance 3
  | .div a b => (s.setReg (opReg a) (aluDiv (s.reg (opReg a)) (s.reg (opReg b)))).advance 3
  | .cmp a b => (s.setFl (compareFlags (s.reg (opReg a)) (s.reg (opReg b)))).advance 3
  | .ldi a b => (s.setReg (opReg a) b).advance 3
  | .prn a => (s.emit (s.reg (opReg a))).advance 2
  | .push a => (s.push (if opReg a = 7 then s.reg 7 - 1 else s.reg (opReg a))).advance 2
  | .pop a =>
    ((s.setReg (opReg a) (s.mem.read s.sp.toNat)).setSp (popBase (opReg a) s + 1)).advance 2
  | .call a =>
    (s.push (BitVec.ofNat 8 (s.pc.toNat + 2))).setPc (if opReg a = 7 then s.reg 7 - 1 else s.reg (opReg a))
  | .ret => (s.setSp (s.sp + 1)).setPc (s.mem.read s.sp.toNat)
  | .jmp a => s.setPc (s.reg (opReg a))
  | .jeq a => { s with pc := if s.fl.getLsbD 0 then (s.reg (opReg a)).setWidth 9 else s.pc + 2 }
  | .jne a => { s with pc := if s.fl.getLsbD 0 then s.pc + 2 else (s.reg (opReg a)).setWidth 9 }
  | .hlt => s.halt

/-! ### The fault of each instruction -/

section
variable (s : State)

/-- A bad index is the fault, whatever the instruction's own checks would say (R128 point 5). -/
theorem execFault_of_badIndex {i : Instr} {v : Byte} (h : badIndex i = some v) :
    execFault i s = some (registerIndexRange v) := by
  simp only [execFault, h]; rfl

theorem execFault_of_badIndex_none {i : Instr} (h : badIndex i = none) : execFault i s = ownFault i s := by
  simp only [execFault, h]

/-- The only register index of an instruction with one is reported when it is above 7. -/
theorem execFault_of_regOperand {i : Instr} {a : Byte} (hi : i.regOperands = [a]) (h : 7 < a.toNat) :
    execFault i s = some (registerIndexRange a) :=
  execFault_of_badIndex s (by simp [badIndex, hi, h])

theorem execFault_regByte {i : Instr} {r : RegIndex} (hi : i.regOperands = [regByte r]) :
    execFault i s = ownFault i s :=
  execFault_of_badIndex_none s (by simp [badIndex, hi])

theorem execFault_regByte_regByte {i : Instr} {r q : RegIndex} (hi : i.regOperands = [regByte r, regByte q]) :
    execFault i s = ownFault i s :=
  execFault_of_badIndex_none s (by simp [badIndex, hi])

theorem getElem?_regs (r : RegIndex) : s.regs[r.val]? = some (s.reg r) :=
  Vector.getElem?_eq_getElem r.isLt

theorem ownFault_div (a : Byte) (rb : RegIndex) : ownFault (.div a (regByte rb)) s =
    if s.reg rb = 0 then some (divideByZero rb) else none := by
  simp only [ownFault, toNat_regByte, getElem?_regs, Option.some.injEq]
  rfl

theorem ownFault_pop (ra : RegIndex) : ownFault (.pop (regByte ra)) s =
    if popBase ra s = 0xFF then some (memoryRange 256) else none := by
  simp only [ownFault, regByte_eq_seven]
  rfl

end

/-! ### The equation -/

/-- `r` is the fault that `execFault` names, or the effect where it names none. -/
def FaultsOrCompletes (i : Instr) (s : State) (r : Result) : Prop :=
  (∃ f, execFault i s = some f ∧ r = .next (s.takeFault f)) ∨
  (execFault i s = none ∧ r = .next (effect i s))

/-- The three instructions that share `aluInPlace`. -/
theorem aluInPlace_faultsOrCompletes {i : Instr} {f : Byte → Byte → Byte} {a b : Byte} {s : State}
    (hi : i.regOperands = [a, b]) (hown : ownFault i s = none)
    (heff : effect i s = (s.setReg (opReg a) (f (s.reg (opReg a)) (s.reg (opReg b)))).advance 3) :
    FaultsOrCompletes i s (aluInPlace f a b s) := by
  rcases aluInPlace_cases f a b s with ⟨ra, rb, rfl, rfl, h⟩ | ⟨v, hv, h⟩
  · exact .inr ⟨(execFault_regByte_regByte s hi).trans hown, h.trans (by simp [heff])⟩
  · exact .inl ⟨_, execFault_of_badIndex s (by rwa [badIndex, hi]), h⟩

/-- Every instruction takes the fault `execFault` names or has its effect (R76, R128). -/
theorem exec_faultsOrCompletes (i : Instr) (s : State) : FaultsOrCompletes i s (exec i s) := by
  cases i with
  | add a b => exact aluInPlace_faultsOrCompletes (i := .add a b) rfl rfl rfl
  | sub a b => exact aluInPlace_faultsOrCompletes (i := .sub a b) rfl rfl rfl
  | mul a b => exact aluInPlace_faultsOrCompletes (i := .mul a b) rfl rfl rfl
  | div a b =>
    rcases execDiv_cases a b s with ⟨ra, rb, rfl, rfl, h0, h⟩ | ⟨ra, rb, rfl, rfl, h0, h⟩ | ⟨v, hv, h⟩
    · exact .inr ⟨by rw [execFault_regByte_regByte s rfl, ownFault_div, if_neg h0], h.trans (by simp [effect])⟩
    · exact .inl ⟨_, by rw [execFault_regByte_regByte s rfl, ownFault_div, if_pos h0], h⟩
    · exact .inl ⟨_, execFault_of_badIndex s hv, h⟩
  | cmp a b =>
    rcases execCmp_cases a b s with ⟨ra, rb, rfl, rfl, h⟩ | ⟨v, hv, h⟩
    · exact .inr ⟨execFault_regByte_regByte s rfl, h.trans (by simp [effect])⟩
    · exact .inl ⟨_, execFault_of_badIndex s hv, h⟩
  | ldi a b =>
    rcases execLdi_cases a b s with ⟨ra, rfl, h⟩ | ⟨ha, h⟩
    · exact .inr ⟨execFault_regByte s rfl, h.trans (by simp [effect])⟩
    · exact .inl ⟨_, execFault_of_regOperand s rfl ha, h⟩
  | prn a =>
    rcases execPrn_cases a s with ⟨ra, rfl, h⟩ | ⟨ha, h⟩
    · exact .inr ⟨execFault_regByte s rfl, h.trans (by simp [effect])⟩
    · exact .inl ⟨_, execFault_of_regOperand s rfl ha, h⟩
  | push a =>
    rcases execPush_cases a s with ⟨ra, rfl, h0, h⟩ | ⟨ra, rfl, h0, h⟩ | ⟨ha, h⟩
    · exact .inr ⟨(execFault_regByte s rfl).trans (if_neg h0), h.trans (by simp [effect, pushed_eq_push, State.reg_setReg])⟩
    · exact .inl ⟨_, (execFault_regByte s rfl).trans (if_pos h0), h⟩
    · exact .inl ⟨_, execFault_of_regOperand s rfl ha, h⟩
  | pop a =>
    rcases execPop_cases a s with ⟨ra, rfl, h0, h⟩ | ⟨ra, rfl, h0, h⟩ | ⟨ha, h⟩
    · exact .inr ⟨by rw [execFault_regByte s rfl, ownFault_pop, if_neg h0], h.trans (by simp [effect])⟩
    · exact .inl ⟨_, by rw [execFault_regByte s rfl, ownFault_pop, if_pos h0], h⟩
    · exact .inl ⟨_, execFault_of_regOperand s rfl ha, h⟩
  | call a =>
    rcases execCall_cases a s with
      ⟨ra, rfl, hp, h0, h⟩ | ⟨ra, rfl, hp, h⟩ | ⟨ra, rfl, hp, h0, h⟩ | ⟨ha, h⟩
    · exact .inr ⟨(execFault_regByte s rfl).trans ((if_neg (by omega)).trans (if_neg h0)),
        h.trans (by simp [effect, pushed_eq_push, State.reg_setReg, State.setSp_eq, sp_eq_reg])⟩
    · exact .inl ⟨_, (execFault_regByte s rfl).trans (if_pos hp), h⟩
    · exact .inl ⟨_, (execFault_regByte s rfl).trans ((if_neg (by omega)).trans (if_pos h0)), h⟩
    · exact .inl ⟨_, execFault_of_regOperand s rfl ha, h⟩
  | ret =>
    rcases execRet_cases s with ⟨h0, h⟩ | ⟨h0, h⟩
    · exact .inr ⟨if_neg h0, h⟩
    · exact .inl ⟨_, if_pos h0, h⟩
  | jmp a =>
    rcases execJmp_cases a s with ⟨ra, rfl, h⟩ | ⟨ha, h⟩
    · exact .inr ⟨execFault_regByte s rfl, h.trans (by simp [effect])⟩
    · exact .inl ⟨_, execFault_of_regOperand s rfl ha, h⟩
  | jeq a =>
    rcases execJeq_cases a s with ⟨ra, rfl, he, h⟩ | ⟨ra, rfl, he, h⟩ | ⟨ha, h⟩
    · exact .inr ⟨execFault_regByte s rfl,
        h.trans (by simp only [effect, opReg_regByte, he, if_true]; rfl)⟩
    · exact .inr ⟨execFault_regByte s rfl,
        h.trans (by simp only [effect, opReg_regByte, he, Bool.false_eq_true, if_false]; rfl)⟩
    · exact .inl ⟨_, execFault_of_regOperand s rfl ha, h⟩
  | jne a =>
    rcases execJne_cases a s with ⟨ra, rfl, he, h⟩ | ⟨ra, rfl, he, h⟩ | ⟨ha, h⟩
    · exact .inr ⟨execFault_regByte s rfl,
        h.trans (by simp only [effect, opReg_regByte, he, Bool.false_eq_true, if_false]; rfl)⟩
    · exact .inr ⟨execFault_regByte s rfl,
        h.trans (by simp only [effect, opReg_regByte, he, if_true]; rfl)⟩
    · exact .inl ⟨_, execFault_of_regOperand s rfl ha, h⟩
  | hlt => exact .inr ⟨rfl, execHlt_eq s⟩

/-- An instruction that `execFault` gives a fault takes it. -/
theorem exec_of_execFault {i : Instr} {s : State} {f : FaultStatus} (h : execFault i s = some f) :
    exec i s = .next (s.takeFault f) := by
  rcases exec_faultsOrCompletes i s with ⟨g, hg, hexec⟩ | ⟨hnone, _⟩
  · rw [hexec, Option.some.inj (hg.symm.trans h)]
  · simp [hnone] at h

/-- An instruction that `execFault` gives no fault has its effect. -/
theorem exec_of_execFault_none {i : Instr} {s : State} (h : execFault i s = none) :
    exec i s = .next (effect i s) := by
  rcases exec_faultsOrCompletes i s with ⟨f, hf, _⟩ | ⟨_, hexec⟩
  · simp [hf] at h
  · exact hexec

/-- Everything an instruction that answers `t` can have done. -/
theorem exec_eq_next {i : Instr} {s t : State} (h : exec i s = .next t) :
    (∃ f, execFault i s = some f ∧ t = s.takeFault f) ∨ (execFault i s = none ∧ t = effect i s) := by
  rcases exec_faultsOrCompletes i s with ⟨f, hf, hexec⟩ | ⟨hnone, hexec⟩
  · cases h.symm.trans hexec; exact .inl ⟨f, hf, rfl⟩
  · cases h.symm.trans hexec; exact .inr ⟨hnone, rfl⟩

end Sys2Proof.Machine
end

section
/-!
SUPPORT. What an instruction changes, field by field, and when it faults: the proofs about faults
(spec/60_exceptions.md R122, R126 to R129) and about frames (spec/10_state.md R13, R17, R21). Each fact is proved
of `effect`, which with fault entry is all that an instruction can do.
-/

namespace Sys2Proof.Machine

/-! ### When an instruction faults -/

theorem execFault_eq_none_iff {i : Instr} {s : State} :
    execFault i s = none ↔ badIndex i = none ∧ ownFault i s = none := by
  cases hb : badIndex i with
  | none => simp [execFault_of_badIndex_none s hb]
  | some v => simp [execFault_of_badIndex s hb]

/-- Why running `i` in `s` reports the fault: a bad index, or the check of the instruction that fails. -/
inductive FaultCause (s : State) : Instr → FaultStatus → Prop where
  | index {i : Instr} {v : Byte} (bad : badIndex i = some v) : FaultCause s i (registerIndexRange v)
  | divisor (a : Byte) (rb : RegIndex) (zero : s.reg rb = 0) :
      FaultCause s (.div a (regByte rb)) (divideByZero rb)
  | returnAddress (a : Byte) (beyond : 255 < s.pc.toNat + 2) : FaultCause s (.call a) (memoryRange 256)
  | callBottom (a : Byte) (zero : s.reg 7 = 0) : FaultCause s (.call a) (memoryRange (-1))
  | pushBottom (a : Byte) (zero : s.reg 7 = 0) : FaultCause s (.push a) (memoryRange (-1))
  | popTop (a : Byte) (top : (if a = 7 then s.mem.read (s.reg 7).toNat else s.reg 7) = 0xFF) :
      FaultCause s (.pop a) (memoryRange 256)
  | retTop (top : s.reg 7 = 0xFF) : FaultCause s .ret (memoryRange 256)

/-- An instruction's own fault has one of the causes. -/
theorem ownFault_cause {i : Instr} {s : State} {f : FaultStatus} (h : ownFault i s = some f) :
    FaultCause s i f := by
  cases i with
  | div a b =>
    obtain ⟨h0, ⟨⟩⟩ := Option.ite_none_right_eq_some.mp h
    obtain ⟨hb, hreg⟩ := Vector.getElem?_eq_some_iff.mp h0
    have hb' : b = regByte ⟨b.toNat, hb⟩ := by simp [regByte]
    rw [hb', toNat_regByte]
    exact .divisor a _ hreg
  | push a => obtain ⟨h0, ⟨⟩⟩ := Option.ite_none_right_eq_some.mp h; exact .pushBottom a h0
  | pop a => obtain ⟨h0, ⟨⟩⟩ := Option.ite_none_right_eq_some.mp h; exact .popTop a h0
  | call a =>
    simp only [ownFault] at h
    split at h
    next hp => cases h; exact .returnAddress a hp
    next => obtain ⟨h0, ⟨⟩⟩ := Option.ite_none_right_eq_some.mp h; exact .callBottom a h0
  | ret => obtain ⟨h0, ⟨⟩⟩ := Option.ite_none_right_eq_some.mp h; exact .retTop h0
  | _ => cases h

/-- A fault that `execFault` names has one of the causes. -/
theorem execFault_cause {i : Instr} {s : State} {f : FaultStatus} (h : execFault i s = some f) :
    FaultCause s i f := by
  cases hb : badIndex i with
  | none => exact ownFault_cause ((execFault_of_badIndex_none s hb).symm.trans h)
  | some v => cases (execFault_of_badIndex s hb).symm.trans h; exact .index hb

/-! ### What the effect leaves unchanged -/

/-- A push and a call that do not fault have a stack pointer to move down. -/
theorem sp_ne_zero_of_execFault_none {i : Instr} {s : State} (hi : ∃ a, i = .push a ∨ i = .call a)
    (h : execFault i s = none) : s.reg 7 ≠ 0 := by
  obtain ⟨_, hown⟩ := execFault_eq_none_iff.mp h
  rintro h0
  rcases hi with ⟨a, rfl | rfl⟩
  · simp [ownFault, h0] at hown
  · simp only [ownFault, h0, if_true] at hown
    split at hown <;> cases hown

/-- Only the fault entry changes the fault record (R126, R129). -/
@[simp] theorem effect_fault (i : Instr) (s : State) : (effect i s).fault = s.fault := by
  cases i <;> rfl

/-- Only HLT and the fault entry change `running` (R18). -/
theorem effect_running {i : Instr} (hi : i ≠ .hlt) (s : State) : (effect i s).running = s.running := by
  cases i with
  | hlt => exact absurd rfl hi
  | _ => rfl

/-- Only PUSH and CALL change memory (R32). -/
theorem effect_mem {i : Instr} (hi : ¬ ∃ a, i = .push a ∨ i = .call a) (s : State) :
    (effect i s).mem = s.mem := by
  cases i with
  | push a => exact absurd ⟨a, .inl rfl⟩ hi
  | call a => exact absurd ⟨a, .inr rfl⟩ hi
  | _ => rfl

/-- Only PRN changes the output log (R21). -/
theorem effect_out {i : Instr} (hi : ∀ a, i ≠ .prn a) (s : State) : (effect i s).out = s.out := by
  cases i with
  | prn a => exact absurd rfl (hi a)
  | _ => rfl

/-- PUSH and CALL that do not fault store one byte, the same over every memory, at the decremented stack pointer
(R95, R100). -/
theorem effect_stores {i : Instr} (hi : ∃ a, i = .push a ∨ i = .call a) (s : State) :
    ∃ v, ∀ m : Memory, (effect i (s.setMem m)).reg 7 = s.reg 7 - 1 ∧
      (effect i (s.setMem m)).mem = m.write (s.reg 7 - 1).toNat v := by
  rcases hi with ⟨a, rfl | rfl⟩
  · exact ⟨if opReg a = 7 then s.reg 7 - 1 else s.reg (opReg a), fun m => by simp [effect]⟩
  · exact ⟨BitVec.ofNat 8 (s.pc.toNat + 2), fun m => by simp [effect]⟩

/-- A register operand of an instruction with no bad index names a register. -/
theorem eq_regByte_of_badIndex_none {i : Instr} (h : badIndex i = none) {v : Byte} (hv : v ∈ i.regOperands) :
    v = regByte (opReg v) := by
  have h7 : ¬ 7 < v.toNat := by simpa using List.find?_eq_none.mp h v hv
  rcases regByte_cases v with ⟨r, rfl, _⟩ | ⟨hbad, _⟩
  · rw [opReg_regByte]
  · exact absurd hbad h7

/-- An instruction whose register operands all name registers, by name. -/
inductive InRange : Instr → Prop where
  | add (ra rb : RegIndex) : InRange (.add (regByte ra) (regByte rb))
  | sub (ra rb : RegIndex) : InRange (.sub (regByte ra) (regByte rb))
  | mul (ra rb : RegIndex) : InRange (.mul (regByte ra) (regByte rb))
  | div (ra rb : RegIndex) : InRange (.div (regByte ra) (regByte rb))
  | cmp (ra rb : RegIndex) : InRange (.cmp (regByte ra) (regByte rb))
  | ldi (ra : RegIndex) (b : Byte) : InRange (.ldi (regByte ra) b)
  | prn (ra : RegIndex) : InRange (.prn (regByte ra))
  | push (ra : RegIndex) : InRange (.push (regByte ra))
  | pop (ra : RegIndex) : InRange (.pop (regByte ra))
  | call (ra : RegIndex) : InRange (.call (regByte ra))
  | ret : InRange .ret
  | jmp (ra : RegIndex) : InRange (.jmp (regByte ra))
  | jeq (ra : RegIndex) : InRange (.jeq (regByte ra))
  | jne (ra : RegIndex) : InRange (.jne (regByte ra))
  | hlt : InRange .hlt

/-- An instruction with no bad index names registers. -/
theorem inRange_of_badIndex_none {i : Instr} (h : badIndex i = none) : InRange i := by
  cases i with
  | add a b | sub a b | mul a b | div a b | cmp a b =>
    rw [eq_regByte_of_badIndex_none h (v := a) (.head _),
      eq_regByte_of_badIndex_none h (v := b) (.tail _ (.head _))]
    constructor
  | ldi a _ | prn a | push a | pop a | call a | jmp a | jeq a | jne a =>
    rw [eq_regByte_of_badIndex_none h (v := a) (.head _)]
    constructor
  | ret | hlt => constructor

/-- An instruction that does not fault names registers. -/
theorem inRange_of_execFault_none {i : Instr} {s : State} (h : execFault i s = none) : InRange i :=
  inRange_of_badIndex_none (execFault_eq_none_iff.mp h).1

/-- The effect changes no register outside the table of R13. -/
theorem reg_effect {i : Instr} (hi : InRange i) (s : State) {q : RegIndex} (hq : q ∉ regsWritten i) :
    (effect i s).reg q = s.reg q := by
  cases hi with
  | add ra _ | sub ra _ | mul ra _ | div ra _ | ldi ra _ =>
    replace hq : q ≠ ra := by simpa [regsWritten] using hq
    simp [effect, hq]
  | pop ra =>
    obtain ⟨hqa, hq7⟩ : q ≠ ra ∧ q ≠ 7 := by simpa [regsWritten] using hq
    simp [effect, State.setSp_eq, hqa, hq7]
  | push _ | call _ | ret => exact State.reg_setReg_ne s _ (by simpa [regsWritten] using hq)
  | cmp _ _ | prn _ | jmp _ | jeq _ | jne _ | hlt => rfl

/-! ### Faults -/

/-- Every step answers a next state: it runs an instruction, faults or does nothing. -/
theorem step_answers (s : State) : ∃ t, step s = .next t := by
  rcases stepWith_cases opcodeMap s with ⟨_, hs⟩ | ⟨_, i, _, hs⟩ | ⟨_, f, _, hs⟩
  · exact ⟨s, hs⟩
  · exact (exec_answers i s).imp fun _ => hs.trans
  · exact ⟨_, hs⟩

/-- Settles O18: every instruction and every step answers a next state. -/
theorem everyStepAnswersANextState : Obligations.EveryStepAnswersANextState :=
  ⟨exec_answers, step_answers⟩

/-- Settles O23: an instruction takes the fault `execFault` names or has its effect, which leaves the fault record
and, HLT apart, `running`. -/
theorem instructionReportsTheFirstFault : Obligations.InstructionReportsTheFirstFault :=
  fun i s => ⟨fun _ => exec_of_execFault,
    fun h => ⟨_, exec_of_execFault_none h, effect_fault i s, fun hi => effect_running hi s⟩⟩

/-- A fetch that fails does not report a division. -/
theorem fetchWith_error_code_ne_divideByZero {m : OpcodeMap} {s : State} {f : FaultStatus}
    (h : fetchWith m s = .error f) : f.code ≠ .divideByZero := by
  rcases fetchWith_error h with ⟨_, rfl⟩ | ⟨rfl, _⟩ | rfl | ⟨rfl, _⟩ <;> nofun

/-- An instruction that newly records a division by zero is a DIV by a register that holds 0. -/
theorem div_of_exec_divideByZero {i : Instr} {s t : State} (h : exec i s = .next t)
    (ht : t.fault.code = .divideByZero) (hs : s.fault.code ≠ .divideByZero) :
    ∃ a rb, i = .div a (regByte rb) ∧ s.reg rb = 0 := by
  rcases exec_eq_next h with ⟨f, hf, rfl⟩ | ⟨_, rfl⟩
  · cases execFault_cause hf with
    | divisor a rb h0 => exact ⟨a, rb, rfl, h0⟩
    | _ => cases ht
  · exact absurd (effect_fault i s ▸ ht) hs

/-- Settles O26: a zero divisor is the one cause of DivideByZero, and a bad index comes before it. -/
theorem divideByZeroFaults : Obligations.DivideByZeroFaults := by
  refine ⟨fun ra rb s h0 => exec_of_execFault ?_,
    fun a b v s hv => exec_of_execFault (execFault_of_badIndex s hv),
    fun i s t => div_of_exec_divideByZero, fun s t hr h ht hs => ?_⟩
  · exact (execFault_regByte_regByte s rfl).trans ((ownFault_div s _ rb).trans (if_pos h0))
  · rcases step_eq_next h with ⟨hr', _⟩ | ⟨_, i, hi, hexec⟩ | ⟨_, f, hf, _, rfl⟩
    · simp [hr] at hr'
    · obtain ⟨a, rb, rfl, _⟩ := div_of_exec_divideByZero hexec ht hs
      exact ⟨a, regByte rb, hi⟩
    · exact absurd ht (fetchWith_error_code_ne_divideByZero hf)

/-- Settles O27: the three ways an instruction ends, and the fault of a fetch. -/
theorem stepGoesOnHaltsOrFaults : Obligations.StepGoesOnHaltsOrFaults := by
  intro s t hr hs h
  rcases step_eq_next h with ⟨hr', _⟩ | ⟨_, i, hi, hexec⟩ | ⟨_, f, _, hc, rfl⟩
  · simp [hr] at hr'
  · cases exec_ends i s with
    | goesOn u hu _ hrun hfault => cases hexec.symm.trans hu; exact .inl ⟨hrun.trans hr, hfault⟩
    | halts hu hlt =>
      cases hexec.symm.trans hu
      exact .inr (.inl ⟨hlt ▸ hi, rfl, rfl, hs⟩)
    | faults f hu hc => cases hexec.symm.trans hu; exact .inr (.inr ⟨hc, rfl, rfl, hc⟩)
  · exact .inr (.inr ⟨hc, rfl, rfl, hc⟩)

/-- No check of an instruction looks at the fault record. -/
theorem execFault_withFault (i : Instr) (s : State) (f : FaultStatus) :
    execFault i { s with fault := f } = execFault i s := by
  cases i <;> rfl

/-- The effect carries another fault record through. -/
theorem effect_withFault (i : Instr) (s : State) (f : FaultStatus) :
    effect i { s with fault := f } = { effect i s with fault := f } := by
  cases i <;> rfl

/-- Settles O29: neither `execFault` nor `effect` looks at the fault record, and a HALTED machine does nothing. -/
theorem faultRecordIsNeitherReadNorCleared : Obligations.FaultRecordIsNeitherReadNorCleared := by
  refine ⟨fun i s f h => ⟨_, exec_of_execFault_none h, effect_fault i s, ?_⟩, fun i s f h => ?_,
    fun n s t hr h => ?_⟩
  · rw [exec_of_execFault_none ((execFault_withFault i s f).trans h), effect_withFault]
  · obtain ⟨g, hg⟩ := Option.ne_none_iff_exists'.mp h
    rw [exec_of_execFault hg, exec_of_execFault ((execFault_withFault i s f).trans hg)]
    rfl
  · cases (runFor_of_halted n hr).symm.trans h
    rfl

/-! ### Frames -/

/-- Everything an instruction can do to memory: nothing, or PUSH and CALL write one byte at the decremented stack
pointer (R32). -/
theorem exec_mem {i : Instr} {s t : State} (h : exec i s = .next t) : t.mem = s.mem ∨
    ((∃ a, i = .push a ∨ i = .call a) ∧ s.reg 7 ≠ 0 ∧ t.reg 7 = s.reg 7 - 1 ∧
      ∃ v, t.mem = s.mem.write (t.reg 7).toNat v) := by
  rcases exec_eq_next h with ⟨f, _, rfl⟩ | ⟨hnone, rfl⟩
  · exact .inl rfl
  by_cases hi : ∃ a, i = .push a ∨ i = .call a
  · refine .inr ⟨hi, sp_ne_zero_of_execFault_none hi hnone, ?_⟩
    obtain ⟨v, hv⟩ := effect_stores hi s
    obtain ⟨hreg, hmem⟩ := hv s.mem
    exact ⟨hreg, v, hreg ▸ hmem⟩
  · exact .inl (effect_mem hi s)

/-- An instruction other than PUSH and CALL leaves memory. -/
theorem exec_sameMemory {i : Instr} {s t : State} (h : exec i s = .next t)
    (hi : ¬ ∃ a, i = .push a ∨ i = .call a) : SameMemory s t := by
  rcases exec_mem h with hm | ⟨hi', _⟩
  · exact fun x => by rw [hm]
  · exact absurd hi' hi

/-- An instruction changes no register outside the table of R13. -/
theorem exec_regs {i : Instr} {s t : State} (h : exec i s = .next t) : SameRegsBut (regsWritten i) s t := by
  intro q hq
  rcases exec_eq_next h with ⟨f, _, rfl⟩ | ⟨hnone, rfl⟩
  · rfl
  · exact reg_effect (inRange_of_execFault_none hnone) s hq

/-- An instruction leaves the output log, or it is PRN of a register and appends its value (R91). -/
theorem exec_out {i : Instr} {s t : State} (h : exec i s = .next t) :
    t.out = s.out ∨ ∃ r, i = .prn (regByte r) ∧ t.out = s.out ++ [s.reg r] := by
  rcases exec_eq_next h with ⟨f, _, rfl⟩ | ⟨hnone, rfl⟩
  · exact .inl rfl
  cases inRange_of_execFault_none hnone with
  | prn ra => exact .inr ⟨ra, rfl, by simp [effect]⟩
  | _ => exact .inl (effect_out (by simp) s)

/-- An instruction other than PRN leaves the output log. -/
theorem exec_out_of_ne_prn {i : Instr} {s t : State} (h : exec i s = .next t) (hi : ∀ a, i ≠ .prn a) :
    t.out = s.out := by
  rcases exec_out h with ho | ⟨r, hr, _⟩
  · exact ho
  · exact absurd hr (hi _)

/-- An instruction other than HLT leaves the status, or fault entry is all it does (R126). -/
theorem exec_status {i : Instr} {s t : State} (h : exec i s = .next t) (hi : i ≠ .hlt) :
    SameStatusOrFault s t := by
  rcases exec_eq_next h with ⟨f, _, rfl⟩ | ⟨_, rfl⟩
  · exact .inr rfl
  · exact .inl ⟨effect_running hi s, effect_fault i s⟩

/-- Settles O45: the frame of each field, for the five that write the register their first operand names. -/
theorem frameOfRegisterWriters : Obligations.FrameOfRegisterWriters := by
  intro i a b s t hi h
  have hregs : regsWritten i = namedReg a := by rcases hi with rfl | rfl | rfl | rfl | rfl <;> rfl
  refine ⟨hregs ▸ exec_regs h, exec_fl h ?_, exec_sameMemory h ?_, exec_out_of_ne_prn h ?_, exec_status h ?_⟩ <;>
    rcases hi with rfl | rfl | rfl | rfl | rfl <;> simp

/-- Settles O46: the frame of each field, for the six that write no register. -/
theorem frameOfInstructionsThatWriteNoRegister : Obligations.FrameOfInstructionsThatWriteNoRegister := by
  intro i a b s t hi h
  have hregs : regsWritten i = [] := by rcases hi with rfl | rfl | rfl | rfl | rfl | rfl <;> rfl
  refine ⟨hregs ▸ exec_regs h, exec_sameMemory h ?_, fun hcmp => exec_fl h ?_,
    fun hprn => exec_out_of_ne_prn h ?_, exec_status h, ?_⟩
  · rcases hi with rfl | rfl | rfl | rfl | rfl | rfl <;> simp
  · rcases hi with rfl | rfl | rfl | rfl | rfl | rfl <;> simp at hcmp ⊢
  · rcases hi with rfl | rfl | rfl | rfl | rfl | rfl <;> simp at hprn ⊢
  · rintro rfl
    cases h
    rfl

/-- Settles O47: memory changes at the decremented stack pointer at most, and only where it can be decremented. -/
theorem frameOfPushAndCall : Obligations.FrameOfPushAndCall := by
  intro i a s t hi h
  have hregs : regsWritten i = [7] := by rcases hi with rfl | rfl <;> rfl
  refine ⟨hregs ▸ exec_regs h, exec_fl h ?_, exec_out_of_ne_prn h ?_, exec_status h ?_, fun p hp x hx => ?_,
    fun f hf x => ?_⟩
  · rcases hi with rfl | rfl <;> simp
  · rcases hi with rfl | rfl <;> simp
  · rcases hi with rfl | rfl <;> simp
  · rcases exec_mem h with hm | ⟨_, h0, hsp, v, hm⟩
    · rw [hm]
    · have hp' : p = t.reg 7 := by
        rw [hsp]
        exact (Except.ok.inj ((if_neg h0).symm.trans hp)).symm
      rw [hm, Memory.read_write_ne _ v (hp' ▸ hx)]
  · rcases exec_mem h with hm | ⟨_, h0, _⟩
    · rw [hm]
    · cases (if_neg h0).symm.trans hf

/-- Settles O48: the frame of each field, for the two that pop. -/
theorem frameOfPopAndRet : Obligations.FrameOfPopAndRet := by
  intro i a s t hi h
  refine ⟨exec_regs h, exec_fl h ?_, exec_sameMemory h ?_, exec_out_of_ne_prn h ?_, exec_status h ?_⟩ <;>
    rcases hi with rfl | rfl <;> simp

end Sys2Proof.Machine
end

section
/-!
SUPPORT. What an instruction depends on (spec/10_state.md R13 to R15, R21; spec/20_memory.md R32). Two runs of one
instruction are compared through `effect`: where `execFault` names the same fault in both states, both take it or
both have their effects.
-/

namespace Sys2Proof.Machine

/-- Two states in which an instruction has the same fault: it takes it in both, or completes in both. -/
theorem exec_both {i : Instr} {s s' : State} (h : execFault i s' = execFault i s) :
    (∃ f, exec i s = .next (s.takeFault f) ∧ exec i s' = .next (s'.takeFault f)) ∨
    (execFault i s = none ∧ exec i s = .next (effect i s) ∧ exec i s' = .next (effect i s')) := by
  rcases exec_faultsOrCompletes i s with ⟨f, hf, hs⟩ | ⟨hnone, hs⟩
  · exact .inl ⟨f, hs, exec_of_execFault (h.trans hf)⟩
  · exact .inr ⟨hnone, hs, exec_of_execFault_none (h.trans hnone)⟩

/-! ### The program counter -/

/-- Only CALL's check looks at the program counter (D17). -/
theorem execFault_withPc {i : Instr} (hi : ∀ a, i ≠ .call a) (s : State) (p : PcWord) :
    execFault i { s with pc := p } = execFault i s := by
  cases i with
  | call a => exact absurd rfl (hi a)
  | _ => rfl

/-- The effect of another instruction carries a different program counter nowhere else. -/
theorem effect_withPc {i : Instr} (hi : ∀ a, i ≠ .call a) (s : State) (p : PcWord) :
    effect i { s with pc := p } = { effect i s with pc := (effect i { s with pc := p }).pc } := by
  cases i with
  | call a => exact absurd rfl (hi a)
  | _ => rfl

/-- Settles O50: neither `execFault` nor, the program counter itself apart, `effect` looks at it but for CALL. -/
theorem onlyCallObservesThePc : Obligations.OnlyCallObservesThePc := by
  intro i s p hi
  rcases exec_both (execFault_withPc hi s p) with ⟨f, hs, hs'⟩ | ⟨_, hs, hs'⟩
  · exact ⟨_, _, hs, hs', rfl⟩
  · exact ⟨_, _, hs, hs', effect_withPc hi s p⟩

/-! ### The output log -/

/-- The state with earlier output in front of its log. -/
def State.prependOut (o : List Byte) (s : State) : State :=
  { s with out := o ++ s.out }

/-- Earlier output is unobserved: no instruction reads the log, and PRN appends to it (R91). -/
theorem unobserved_prependOut (o : List Byte) : Unobserved (State.prependOut o) where
  reg _ _ := rfl
  pc _ := rfl
  mem _ := rfl
  setReg _ _ _ := rfl
  setPc _ _ := rfl
  advance _ _ := rfl
  setMem _ _ := rfl
  emit s v := by simp [State.prependOut, State.emit]
  halt _ := rfl
  takeFault _ _ := rfl

/-- A run from any log is the run from the empty log with that log in front. -/
theorem exec_prependOut {i : Instr} {s t : State} (o : List Byte)
    (h : exec i { s with out := [] } = .next t) : exec i { s with out := o } = .next (t.prependOut o) := by
  have hu := exec_update (unobserved_prependOut o) (fun _ _ _ => rfl) (fun _ => rfl) h
  simpa [State.prependOut] using hu

/-- A step appends at most one value to the output log. -/
theorem step_out {s t : State} (h : step s = .next t) : ∃ new, t.out = s.out ++ new ∧ new.length ≤ 1 := by
  rcases step_eq_next h with ⟨_, rfl⟩ | ⟨_, i, _, hexec⟩ | ⟨_, f, _, _, rfl⟩
  · exact ⟨[], by simp⟩
  · rcases exec_out hexec with ho | ⟨r, _, ho⟩
    · exact ⟨[], by simp [ho]⟩
    · exact ⟨[s.reg r], ho, Nat.le_refl 1⟩
  · exact ⟨[], by simp⟩

/-- Settles O51: who writes the log is `exec_out`, and that nothing reads it is that both runs are the run from the
empty log with another log in front. -/
theorem onlyPrintWritesTheOutputLog : Obligations.OnlyPrintWritesTheOutputLog := by
  refine ⟨fun _ _ _ => exec_out, fun _ _ => step_out, fun i s t o h => ?_⟩
  obtain ⟨t₀, h₀⟩ := exec_answers i { s with out := [] }
  cases h.symm.trans (exec_prependOut s.out h₀)
  exact ⟨t₀.out, rfl, exec_prependOut o h₀⟩

/-! ### Memory -/

/-- Only POP's check looks at memory (R96). -/
theorem execFault_withMem {i : Instr} (hi : ∀ a, i ≠ .pop a) (s : State) (m : Memory) :
    execFault i { s with mem := m } = execFault i s := by
  cases i with
  | pop a => exact absurd rfl (hi a)
  | _ => rfl

/-- The effect of an instruction that does not pop carries different memory nowhere else. -/
theorem effect_withMem {i : Instr} (hpop : ∀ a, i ≠ .pop a) (hret : i ≠ .ret) (s : State) (m₁ m₂ : Memory) :
    effect i { s with mem := m₂ } =
      { effect i { s with mem := m₁ } with mem := (effect i { s with mem := m₂ }).mem } := by
  cases i with
  | pop a => exact absurd rfl (hpop a)
  | ret => exact absurd rfl hret
  | _ => rfl

section
variable {s : State} {m₁ m₂ : Memory}

/-- What POP and RET fault on in memory is the byte at the stack pointer. -/
theorem execFault_of_read_eq {i : Instr} (hi : (∃ a, i = .pop a) ∨ i = .ret)
    (h : m₁.read (s.reg 7).toNat = m₂.read (s.reg 7).toNat) :
    execFault i { s with mem := m₂ } = execFault i { s with mem := m₁ } := by
  have hsp (m : Memory) : ({ s with mem := m } : State).reg 7 = s.reg 7 := rfl
  rcases hi with ⟨a, rfl⟩ | rfl
  · simp only [execFault, ownFault, hsp, h]
  · rfl

/-- What POP and RET load from memory is the byte at the stack pointer. -/
theorem effect_of_read_eq {i : Instr} (hi : (∃ a, i = .pop a) ∨ i = .ret)
    (h : m₁.read (s.reg 7).toNat = m₂.read (s.reg 7).toNat) :
    effect i { s with mem := m₂ } = { effect i { s with mem := m₁ } with mem := m₂ } := by
  have hsp (m : Memory) : ({ s with mem := m } : State).sp = s.reg 7 := rfl
  rcases hi with ⟨a, rfl⟩ | rfl
  · simp only [effect, popBase, hsp, h]
    rfl
  · simp only [effect, hsp, h]
    rfl

end

/-- The register POP names, after it: the byte loaded, which register 7 holds incremented (R96, D16). -/
theorem reg_effect_pop (a : Byte) (s : State) : (effect (.pop a) s).reg (opReg a) =
    s.mem.read (s.reg 7).toNat + if opReg a = 7 then 1 else 0 := by
  simp only [effect, State.reg_advance, State.setSp_eq, State.reg_setReg, popBase, if_true]
  split
  · rfl
  · exact (BitVec.add_zero _).symm

/-- POP and RET that load different bytes leave different registers or program counters. -/
theorem effect_ne_of_read_ne {i : Instr} (hi : (∃ a, i = .pop a) ∨ i = .ret) {s s' : State}
    (h : s.mem.read (s.reg 7).toNat ≠ s'.mem.read (s'.reg 7).toNat) :
    (effect i s).regs ≠ (effect i s').regs ∨ (effect i s).pc ≠ (effect i s').pc := by
  rcases hi with ⟨a, rfl⟩ | rfl
  · refine .inl fun hregs => h ?_
    have hreg : (effect (.pop a) s).reg (opReg a) = (effect (.pop a) s').reg (opReg a) :=
      congrArg (fun v : Vector Byte 8 => v[opReg a]) hregs
    rw [reg_effect_pop, reg_effect_pop] at hreg
    exact add_right_cancel hreg
  · refine .inr fun hpc => h (BitVec.eq_of_toNat_eq ?_)
    rw [← toNat_target, ← toNat_target (s'.mem.read _)]
    exact congrArg BitVec.toNat hpc

/-- Settles O13: memory is written by `exec_mem` and `effect_stores`, and two memories are told apart by POP and RET
alone, by the byte at the stack pointer. -/
theorem onlyStackInstructionsAccessMemory : Obligations.OnlyStackInstructionsAccessMemory := by
  refine ⟨fun i s t h => ?_, fun i s hi hnone => ?_, fun i s m₁ m₂ hpop hret => ?_, fun i s m₁ m₂ hi h => ?_,
    fun i s m₁ m₂ hi h₁ h₂ h => ⟨_, _, exec_of_execFault_none h₁, exec_of_execFault_none h₂,
      effect_ne_of_read_ne hi h⟩⟩
  · exact (exec_mem h).imp_right fun ⟨hi, _, hreg, hmem⟩ => ⟨hi, hreg, hmem⟩
  · obtain ⟨v, hv⟩ := effect_stores hi s
    have hpop : ∀ a, i ≠ .pop a := by rcases hi with ⟨a, rfl | rfl⟩ <;> simp
    refine ⟨v, fun m => ?_⟩
    obtain ⟨hreg, hmem⟩ := hv m
    exact ⟨_, exec_of_execFault_none ((execFault_withMem hpop s m).trans hnone), hreg, hreg.symm ▸ hmem⟩
  · have hfault : execFault i { s with mem := m₂ } = execFault i { s with mem := m₁ } :=
      (execFault_withMem hpop s m₂).trans (execFault_withMem hpop s m₁).symm
    rcases exec_both hfault with ⟨f, hs, hs'⟩ | ⟨_, hs, hs'⟩
    · exact ⟨_, _, hs, hs', rfl⟩
    · exact ⟨_, _, hs, hs', effect_withMem hpop hret s m₁ m₂⟩
  · rcases exec_both (execFault_of_read_eq hi h) with ⟨f, hs, hs'⟩ | ⟨_, hs, hs'⟩
    · exact ⟨s.takeFault f, hs, hs'⟩
    · exact ⟨effect i { s with mem := m₁ }, hs.trans (congrArg _ (effect_of_read_eq hi rfl)),
        hs'.trans (congrArg _ (effect_of_read_eq hi h))⟩

/-! ### Registers -/

theorem State.setReg_setReg_self (s : State) (r : RegIndex) (v w : Byte) :
    (s.setReg r v).setReg r w = s.setReg r w := by
  simp [State.setReg]

theorem State.setReg_setReg_comm (s : State) {r q : RegIndex} (h : q ≠ r) (v w : Byte) :
    (s.setReg r v).setReg q w = (s.setReg q w).setReg r v := by
  have h' : r.val ≠ q.val := fun e => h (Fin.ext e.symm)
  simp only [State.setReg, Vector.set_comm _ _ h']

section
variable {i : Instr} {s : State} {r : RegIndex} (v : Byte) (hr : r ∉ regsRead i s)
include hr

/-- No check of an instruction looks at a register outside the table of R13. -/
theorem execFault_setReg : execFault i (s.setReg r v) = execFault i s := by
  cases hb : badIndex i with
  | some w => rw [execFault_of_badIndex _ hb, execFault_of_badIndex s hb]
  | none =>
    rw [execFault_of_badIndex_none _ hb, execFault_of_badIndex_none s hb]
    cases inRange_of_badIndex_none hb with
    | div ra rb =>
      obtain ⟨_, hrb⟩ : r ≠ ra ∧ r ≠ rb := by simpa [regsRead] using hr
      rw [ownFault_div, ownFault_div, State.reg_setReg_ne s v hrb.symm]
    | push _ | pop _ | call _ | ret =>
      have h7 : r ≠ 7 := by rintro rfl; exact hr (.head _)
      simp only [ownFault, State.reg_setReg_ne s v h7.symm, State.setReg_pc, State.setReg_mem]
    | _ => rfl

/-- The effect carries through a register that the tables of R13 list neither as read nor as written. -/
theorem effect_setReg_of_not_written (hi : InRange i) (hw : r ∉ regsWritten i) :
    effect i (s.setReg r v) = (effect i s).setReg r v := by
  have hne {q : RegIndex} (h : ¬ r = q) : (s.setReg r v).reg q = s.reg q :=
    State.reg_setReg_ne s v (Ne.symm h)
  have hcomm (s : State) {q : RegIndex} (h : ¬ r = q) (w : Byte) :
      (s.setReg r v).setReg q w = (s.setReg q w).setReg r v :=
    State.setReg_setReg_comm s (Ne.symm h) v w
  cases hi with
  | add ra rb | sub ra rb | mul ra rb | div ra rb =>
    obtain ⟨hra, hrb⟩ : ¬ r = ra ∧ ¬ r = rb := by simpa [regsRead] using hr
    simp only [effect, opReg_regByte, hne hra, hne hrb, hcomm s hra]
    rfl
  | cmp ra rb =>
    obtain ⟨hra, hrb⟩ : ¬ r = ra ∧ ¬ r = rb := by simpa [regsRead] using hr
    simp only [effect, opReg_regByte, hne hra, hne hrb]
    rfl
  | ldi ra b =>
    replace hw : ¬ r = ra := by simpa [regsWritten] using hw
    simp only [effect, opReg_regByte, hcomm s hw]
    rfl
  | prn ra | jmp ra =>
    replace hr : ¬ r = ra := by simpa [regsRead] using hr
    simp only [effect, opReg_regByte, hne hr]
    rfl
  | push ra | call ra =>
    obtain ⟨h7, hra⟩ : ¬ r = 7 ∧ ¬ r = ra := by simpa [regsRead] using hr
    simp only [effect, opReg_regByte, State.push, hne h7, hne hra, hcomm s h7]
    rfl
  | pop ra =>
    obtain ⟨hra, h7⟩ : ¬ r = ra ∧ ¬ r = 7 := by simpa [regsWritten] using hw
    simp only [effect, opReg_regByte, popBase, sp_eq_reg, State.setSp_eq, hne h7, hcomm _ hra, hcomm _ h7]
    rfl
  | ret =>
    replace hw : ¬ r = 7 := by simpa [regsWritten] using hw
    simp only [effect, sp_eq_reg, State.setSp_eq, hne hw, hcomm s hw]
    rfl
  | jeq ra =>
    cases he : s.fl.getLsbD 0 with
    | false => simp only [effect, State.setReg_fl, he]; rfl
    | true =>
      simp only [regsRead, he, if_true, namedReg_regByte, List.mem_singleton] at hr
      simp only [effect, opReg_regByte, State.setReg_fl, he, hne hr]
      rfl
  | jne ra =>
    cases he : s.fl.getLsbD 0 with
    | true => simp only [effect, State.setReg_fl, he]; rfl
    | false =>
      simp only [regsRead, he, Bool.false_eq_true, if_false, namedReg_regByte, List.mem_singleton] at hr
      simp only [effect, opReg_regByte, State.setReg_fl, he, hne hr]
      rfl
  | hlt => rfl

/-- The effect overwrites a register that the table of R13 lists as written and not as read. -/
theorem effect_setReg_of_written (hi : InRange i) (hw : r ∈ regsWritten i) :
    effect i (s.setReg r v) = effect i s := by
  cases hi with
  | ldi ra b =>
    obtain rfl : r = ra := by simpa [regsWritten] using hw
    simp only [effect, opReg_regByte, State.setReg_setReg_self]
  | pop ra =>
    replace hr : r ≠ 7 := by simpa [regsRead] using hr
    obtain rfl : r = ra := by simpa [regsWritten, hr] using hw
    simp only [effect, opReg_regByte, popBase, sp_eq_reg, State.reg_setReg_ne s v hr.symm,
      State.setReg_setReg_self, State.setReg_mem]
  | add ra rb | sub ra rb | mul ra rb | div ra rb | cmp ra rb | prn ra | jmp ra | jeq ra | jne ra | push ra
  | call ra | ret | hlt => simp_all [regsRead, regsWritten]

end

/-- Settles O49: a register that is not read is carried through or overwritten, and the rest does not depend on it. -/
theorem registersReadAndWrittenByTheTable : Obligations.RegistersReadAndWrittenByTheTable := by
  refine ⟨fun _ _ _ => exec_regs, fun i s r v hr => ?_⟩
  have hcarry {t : State} (ht : t.reg r = s.reg r) : SameRegsBut [r] t (t.setReg r v) ∧
      ((t.setReg r v).reg r = t.reg r ∨ (t.setReg r v).reg r = v ∧ t.reg r = s.reg r) :=
    ⟨fun q hq => State.reg_setReg_ne t v (by simpa using hq), .inr ⟨State.reg_setReg_self t r v, ht⟩⟩
  rcases exec_both (execFault_setReg v hr) with ⟨f, hs, hs'⟩ | ⟨hnone, hs, hs'⟩
  · exact ⟨_, _, hs, hs', rfl, rfl, rfl, rfl, rfl, rfl, hcarry (t := s.takeFault f) rfl⟩
  · have hi := inRange_of_execFault_none hnone
    by_cases hw : r ∈ regsWritten i
    · rw [effect_setReg_of_written v hr hi hw] at hs'
      exact ⟨_, _, hs, hs', rfl, rfl, rfl, rfl, rfl, rfl, fun _ _ => rfl, .inl rfl⟩
    · rw [effect_setReg_of_not_written v hr hi hw] at hs'
      exact ⟨_, _, hs, hs', rfl, rfl, rfl, rfl, rfl, rfl, hcarry (reg_effect hi s hw)⟩

end Sys2Proof.Machine
end

section
/-!
SUPPORT. Every instruction completes (spec/41_alu.md to spec/45_halt.md): the state it answers when its register
operands name registers and its own checks pass.
-/

namespace Sys2Proof.Machine

/-! ### The state each instruction answers -/

section
variable (ra rb : RegIndex) (s : State)

theorem exec_add_regByte : exec (.add (regByte ra) (regByte rb)) s =
    .next ((s.setReg ra (aluAdd (s.reg ra) (s.reg rb))).advance 3) :=
  (exec_of_execFault_none (execFault_regByte_regByte s rfl)).trans (by simp [effect])

theorem exec_sub_regByte : exec (.sub (regByte ra) (regByte rb)) s =
    .next ((s.setReg ra (aluSub (s.reg ra) (s.reg rb))).advance 3) :=
  (exec_of_execFault_none (execFault_regByte_regByte s rfl)).trans (by simp [effect])

theorem exec_mul_regByte : exec (.mul (regByte ra) (regByte rb)) s =
    .next ((s.setReg ra (aluMul (s.reg ra) (s.reg rb))).advance 3) :=
  (exec_of_execFault_none (execFault_regByte_regByte s rfl)).trans (by simp [effect])

theorem exec_div_regByte (h : s.reg rb ≠ 0) : exec (.div (regByte ra) (regByte rb)) s =
    .next ((s.setReg ra (aluDiv (s.reg ra) (s.reg rb))).advance 3) :=
  (exec_of_execFault_none ((execFault_regByte_regByte s rfl).trans ((ownFault_div s _ rb).trans (if_neg h)))).trans
    (by simp [effect])

theorem exec_ldi_regByte (literal : Byte) : exec (.ldi (regByte ra) literal) s =
    .next ((s.setReg ra literal).advance 3) :=
  (exec_of_execFault_none (execFault_regByte s rfl)).trans (by simp [effect])

theorem exec_prn_regByte : exec (.prn (regByte ra)) s = .next ((s.emit (s.reg ra)).advance 2) :=
  (exec_of_execFault_none (execFault_regByte s rfl)).trans (by simp [effect])

theorem exec_jmp_regByte : exec (.jmp (regByte ra)) s = .next (s.setPc (s.reg ra)) :=
  (exec_of_execFault_none (execFault_regByte s rfl)).trans (by simp [effect])

theorem exec_jeq_regByte : exec (.jeq (regByte ra)) s =
    .next { s with pc := if s.fl.getLsbD 0 then (s.reg ra).setWidth 9 else s.pc + 2 } :=
  (exec_of_execFault_none (execFault_regByte s rfl)).trans (by simp only [effect, opReg_regByte])

theorem exec_jne_regByte : exec (.jne (regByte ra)) s =
    .next { s with pc := if s.fl.getLsbD 0 then s.pc + 2 else (s.reg ra).setWidth 9 } :=
  (exec_of_execFault_none (execFault_regByte s rfl)).trans (by simp only [effect, opReg_regByte])

/-- PUSH R7 pushes the decremented pointer (D16). -/
theorem exec_push_regByte (h : s.reg 7 ≠ 0) : exec (.push (regByte ra)) s =
    .next ((s.push (if ra = 7 then s.reg 7 - 1 else s.reg ra)).advance 2) := by
  have hown : ownFault (.push (regByte ra)) s = none := if_neg h
  rw [exec_of_execFault_none ((execFault_regByte s rfl).trans hown), effect, opReg_regByte]

/-- CALL R7 jumps to the decremented pointer (D16). -/
theorem exec_call_regByte (hp : s.pc.toNat + 2 ≤ 255) (h : s.reg 7 ≠ 0) : exec (.call (regByte ra)) s =
    .next ((s.push (BitVec.ofNat 8 (s.pc.toNat + 2))).setPc (if ra = 7 then s.reg 7 - 1 else s.reg ra)) := by
  have hown : ownFault (.call (regByte ra)) s = none := (if_neg (by omega)).trans (if_neg h)
  rw [exec_of_execFault_none ((execFault_regByte s rfl).trans hown), effect, opReg_regByte]

theorem exec_pop_regByte (hne : ra ≠ 7) (h : s.reg 7 ≠ 0xFF) : exec (.pop (regByte ra)) s =
    .next (((s.setReg ra (s.mem.read (s.reg 7).toNat)).setReg 7 (s.reg 7 + 1)).advance 2) := by
  have hbase : popBase ra s = s.reg 7 := if_neg hne
  rw [exec_of_execFault_none ((execFault_regByte s rfl).trans ((ownFault_pop s ra).trans (if_neg (hbase ▸ h))))]
  simp only [effect, opReg_regByte, hbase]
  rfl

/-- POP R7 leaves the loaded byte plus 1 (D16). -/
theorem exec_pop_seven (h : s.mem.read (s.reg 7).toNat ≠ 0xFF) : exec (.pop (regByte 7)) s =
    .next ((s.setReg 7 (s.mem.read (s.reg 7).toNat + 1)).advance 2) := by
  rw [exec_of_execFault_none ((execFault_regByte s rfl).trans ((ownFault_pop s 7).trans (if_neg h)))]
  simp only [effect, opReg_regByte, State.setSp_eq, State.setReg_setReg_self]
  rfl

theorem exec_ret (h : s.reg 7 ≠ 0xFF) : exec .ret s =
    .next ((s.setReg 7 (s.reg 7 + 1)).setPc (s.mem.read (s.reg 7).toNat)) :=
  exec_of_execFault_none (if_neg h)

end

/-! ### The completions -/

/-- The frame of the instructions that write one register and go on three bytes later. -/
theorem frame_setReg_advance (s : State) (ra : RegIndex) (v : Byte) :
    ((s.setReg ra v).advance 3).pc = s.pc + 3 ∧ SameRegsBut [ra] s ((s.setReg ra v).advance 3) ∧
    ((s.setReg ra v).advance 3).fl = s.fl ∧ ((s.setReg ra v).advance 3).running = s.running ∧
    ((s.setReg ra v).advance 3).fault = s.fault ∧ SameMemory s ((s.setReg ra v).advance 3) ∧
    ((s.setReg ra v).advance 3).out = s.out :=
  ⟨rfl, fun _ hq => State.reg_setReg_ne s v (by simpa using hq), rfl, rfl, rfl, fun _ => rfl, rfl⟩

/-- Settles O31: R81's sum, cut to eight bits. -/
theorem addCompletes : Obligations.AddCompletes := fun ra rb s =>
  ⟨_, exec_add_regByte ra rb s, by simp [toNat_aluAdd], frame_setReg_advance s ra _⟩

/-- Settles O32: R82's difference, cut to eight bits. -/
theorem subCompletes : Obligations.SubCompletes := fun ra rb s =>
  ⟨_, exec_sub_regByte ra rb s, by simpa [aluSub] using toNat_trunc8 _, frame_setReg_advance s ra _⟩

/-- Settles O33: R83's product, cut to eight bits. -/
theorem mulCompletes : Obligations.MulCompletes := fun ra rb s =>
  ⟨_, exec_mul_regByte ra rb s, by simp [toNat_aluMul], frame_setReg_advance s ra _⟩

/-- Settles O34: R84's quotient is the floor of the division. -/
theorem divCompletes : Obligations.DivCompletes := by
  intro ra rb s h
  have hpos : 0 < (s.reg rb).toNat := Nat.pos_of_ne_zero fun e => h (BitVec.eq_of_toNat_eq e)
  refine ⟨_, exec_div_regByte ra rb s h, ?_, ?_, frame_setReg_advance s ra _⟩
  · simpa [toNat_aluDiv] using Nat.div_mul_le_self _ _
  · simpa [toNat_aluDiv] using (Nat.div_lt_iff_lt_mul hpos).mp (Nat.lt_succ_self _)

/-- Settles O35: the three cases of R85's comparison. -/
theorem cmpCompletes : Obligations.CmpCompletes := by
  refine fun ra rb s => ⟨_, exec_cmp_regByte ra rb s, fun h => if_pos h, fun h => ?_, fun h => ?_, rfl,
    fun _ _ => rfl, rfl, rfl, fun _ => rfl, rfl⟩
  · exact (if_neg (by omega)).trans (if_pos h)
  · exact (if_neg (by omega)).trans (if_neg (by omega))

/-- Settles O36: R90. -/
theorem ldiCompletes : Obligations.LdiCompletes := fun ra literal s =>
  ⟨_, exec_ldi_regByte ra s literal, by simp, frame_setReg_advance s ra _⟩

/-- Settles O37: R91. -/
theorem prnCompletes : Obligations.PrnCompletes := fun ra s =>
  ⟨_, exec_prn_regByte ra s, rfl, rfl, fun _ _ => rfl, rfl, rfl, rfl, fun _ => rfl⟩

/-- Settles O38: what a push leaves, with the byte R95 pushes. -/
theorem pushCompletes : Obligations.PushCompletes := by
  refine fun ra s h => ⟨_, exec_push_regByte ra s h, ?_, ?_, fun _ hx => s.push_read_ne _ h hx, rfl,
    exec_regs (exec_push_regByte ra s h), rfl, rfl, rfl, rfl⟩
  · rw [State.reg_advance, State.push_reg_seven, toNat_sub_one h]
  · rw [State.reg_advance, State.push_reg_seven, State.advance_mem, State.push_read _ _ h]

/-- Settles O39: R96, for a register other than 7 and for register 7. -/
theorem popCompletes : Obligations.PopCompletes := by
  constructor
  · intro ra s hne h
    have hexec := exec_pop_regByte ra s hne h
    refine ⟨_, hexec, by simp [hne], ?_, rfl, by simpa [regsWritten] using exec_regs hexec, rfl, rfl, rfl,
      fun _ => rfl, rfl⟩
    rw [State.reg_advance, State.reg_setReg_self, toNat_add_one h]
  · intro s h
    refine ⟨_, exec_pop_seven s h, ?_, rfl, fun q hq => State.reg_setReg_ne s _ (by simpa using hq), rfl, rfl, rfl,
      fun _ => rfl, rfl⟩
    rw [State.reg_advance, State.reg_setReg_self, toNat_add_one h]

/-- Settles O40: what a push leaves, with the return address R100 pushes. -/
theorem callCompletes : Obligations.CallCompletes := by
  refine fun ra s hp h => ⟨_, exec_call_regByte ra s hp h, ?_, ?_, fun _ hx => s.push_read_ne _ h hx, ?_,
    exec_regs (exec_call_regByte ra s hp h), rfl, rfl, rfl, rfl⟩
  · rw [State.reg_setPc, State.push_reg_seven, toNat_sub_one h]
  · rw [State.setPc_mem, State.push_read _ _ h, BitVec.toNat_ofNat]
    omega
  · rw [State.setPc_pc, toNat_target, State.reg_setPc, State.push_reg_seven]

/-- Settles O41: R101. -/
theorem retCompletes : Obligations.RetCompletes := by
  intro s h
  have hexec := exec_ret s h
  refine ⟨_, hexec, toNat_target _, ?_, exec_regs hexec, rfl, rfl, rfl, fun _ => rfl, rfl⟩
  rw [State.reg_setPc, State.reg_setReg_self, toNat_add_one h]

/-- Settles O42: R102. -/
theorem jmpCompletes : Obligations.JmpCompletes := fun ra s =>
  ⟨_, exec_jmp_regByte ra s, toNat_target _, fun _ _ => rfl, rfl, rfl, rfl, fun _ => rfl, rfl⟩

/-- Settles O43: R103 and R104, by the E flag. -/
theorem conditionalJumpsComplete : Obligations.ConditionalJumpsComplete := by
  refine fun ra s => ⟨_, _, exec_jeq_regByte ra s, exec_jne_regByte ra s, fun h => ?_, fun h => ?_, rfl, rfl⟩
  · exact ⟨if_pos h, if_pos h⟩
  · exact ⟨if_neg (by rw [h]; nofun), if_neg (by rw [h]; nofun)⟩

/-- Settles O44: R110. -/
theorem hltCompletes : Obligations.HltCompletes := fun s =>
  ⟨_, execHlt_eq s, rfl, rfl, fun _ _ => rfl, rfl, rfl, fun _ => rfl, rfl⟩

end Sys2Proof.Machine
end

section
/-!
SUPPORT. Memory, the fetch and the step: canonical memories, the program load (spec/70_reset_and_hazards.md R142),
the faults of the fetch in their order (spec/60_exceptions.md R128 points 1 to 4) and the step as `exec` of what
stands at the program counter (spec/40_dispatch.md R70).
-/

namespace Sys2Proof.Machine

/-! ### Canonical memories -/

/-- A memory that lists only addresses above `k` reads as unlisted at `k`. -/
theorem Memory.read_of_lt {m : Memory} {k : Nat} (h : ∀ c ∈ m, k < c.1) : m.read k = Memory.unlisted := by
  induction m with
  | nil => rfl
  | cons d m ih =>
    have hd := h d (.head _)
    rw [Memory.read_cons, if_neg (by omega), ih fun c hc => h c (.tail _ hc)]

/-- The cells of a canonical memory are what is read, where it is not what an unlisted address reads as. -/
theorem Memory.mem_iff_read {m : Memory} (h : m.wf) (c : Host.Cell) :
    c ∈ m ↔ m.read c.1 = c.2 ∧ c.2 ≠ Memory.unlisted := by
  obtain ⟨hsorted, hcells⟩ := h
  induction m with
  | nil => simpa using fun e => e.symm
  | cons d m ih =>
    obtain ⟨hd, hm⟩ := List.pairwise_cons.mp hsorted
    rw [List.mem_cons, Memory.read_cons, ih hm fun c hc => hcells c (.tail _ hc)]
    by_cases hdc : d.1 = c.1
    · have hread : Memory.read m c.1 = Memory.unlisted := Memory.read_of_lt (hdc ▸ hd)
      have hval := (hcells d (.head _)).2
      rw [if_pos hdc, hread]
      constructor
      · rintro (rfl | ⟨e, hne⟩)
        · exact ⟨rfl, hval⟩
        · exact absurd e.symm hne
      · exact fun ⟨e, _⟩ => .inl (Prod.ext hdc.symm e.symm)
    · rw [if_neg hdc, or_iff_right]
      rintro rfl
      exact hdc rfl

/-- Settles O12: equal reads are equal cells, and both lists have them in rising order. -/
theorem equalReadsAreEqualMemories : Obligations.EqualReadsAreEqualMemories := by
  intro m₁ m₂ h₁ h₂ hread
  have hmem (c : Host.Cell) : c ∈ m₁ ↔ c ∈ m₂ := by
    rw [Memory.mem_iff_read h₁, Memory.mem_iff_read h₂, hread]
  have hnodup (m : Memory) : m.Pairwise (fun c d => c.1 < d.1) → m.Nodup :=
    List.Pairwise.imp fun hlt e => absurd (e ▸ hlt) (Nat.lt_irrefl _)
  exact ((List.perm_ext_iff_of_nodup (hnodup m₁ h₁.1) (hnodup m₂ h₂.1)).mpr hmem).eq_of_pairwise
    (fun c d _ _ hcd hdc => absurd hcd (Nat.lt_asymm hdc)) h₁.1 h₂.1

/-! ### Program load -/

/-- Placing bytes leaves the addresses below and above them. -/
theorem Memory.read_place_outside (m : Memory) {k j : Nat} {bs : List Byte} (h : j < k ∨ k + bs.length ≤ j) :
    (m.place k bs).read j = m.read j := by
  induction bs generalizing m k with
  | nil => rfl
  | cons b bs ih =>
    simp only [List.length_cons] at h
    simp only [Memory.place]
    split
    · rw [ih _ (by omega), Memory.read_write_ne _ _ (by omega)]
    · rfl

/-- Bytes placed within memory stand at ascending addresses. -/
theorem Memory.read_place (m : Memory) {k n : Nat} {bs : List Byte} (h : k + bs.length ≤ 256)
    (hn : n < bs.length) : (m.place k bs).read (k + n) = bs[n] := by
  induction bs generalizing m k n with
  | nil => cases hn
  | cons b bs ih =>
    simp only [List.length_cons] at h hn
    simp only [Memory.place]
    rw [if_pos (show k < Config.memSize by simp only [Config.memSize]; omega)]
    cases n with
    | zero => rw [Memory.read_place_outside _ (by omega), Nat.add_zero, Memory.read_write_self]; rfl
    | succ n => rw [show k + (n + 1) = k + 1 + n by omega, ih _ (by omega) (by omega)]; rfl

/-- Settles O4: a load places the bytes from address 0 over empty memory. -/
theorem loadFillsMemoryFromAddressZero : Obligations.LoadFillsMemoryFromAddressZero := by
  refine fun bytes => ⟨fun h => ⟨_, if_pos h, fun k hk => ?_, fun k hk => ?_, rfl⟩,
    fun h => if_neg (Nat.not_le.mpr h)⟩
  · simpa using Memory.read_place [] (k := 0) (by simpa using h) hk
  · exact Memory.read_place_outside [] (.inr (by simpa using hk))

/-! ### The memory primitives -/

/-- A read in range (R31). -/
theorem memRead_inRange (s : State) {a : Int} (h0 : 0 ≤ a) (h : a ≤ 255) :
    memRead s a = .ok (s.mem.read a.toNat) :=
  if_pos ⟨h0, Int.lt_add_one_of_le h⟩

/-- A read out of range (R31, R124). -/
theorem memRead_outOfRange (s : State) {a : Int} (h : a < 0 ∨ 255 < a) : memRead s a = .error (memoryRange a) :=
  if_neg (by simp only [Config.memSize]; omega)

/-- A write in range (R31). -/
theorem memWrite_inRange (s : State) (v : Byte) {a : Int} (h0 : 0 ≤ a) (h : a ≤ 255) :
    memWrite s a v = .ok (s.setMem (s.mem.write a.toNat v)) :=
  if_pos ⟨h0, Int.lt_add_one_of_le h⟩

/-- A write out of range (R31, R124). -/
theorem memWrite_outOfRange (s : State) (v : Byte) {a : Int} (h : a < 0 ∨ 255 < a) :
    memWrite s a v = .error (memoryRange a) :=
  if_neg (by simp only [Config.memSize]; omega)

/-! ### The fetch -/

section
variable {m : OpcodeMap} {s : State}

/-- The fetch of an instruction whose operand bytes are all in memory (R70, R74). -/
theorem fetchWith_known {k : Mnemonic} (hp : s.pc.toNat + k.operandCount ≤ 255)
    (hc : classify m (s.mem.read s.pc.toNat) = .known k) :
    fetchWith m s = .ok (k.instr (s.mem.read (s.pc.toNat + 1)) (s.mem.read (s.pc.toNat + 2))) := by
  rcases k.operandCount_cases with hk | hk | hk
  · rw [fetchWith_known_zero (by omega) hc hk, Mnemonic.instr_of_count_zero hk]
  · rw [fetchWith_known_one (by omega) hc hk, Mnemonic.instr_of_count_one hk]
  · exact fetchWith_known_two (by omega) hc hk

/-- A fetch that gives an instruction decoded it. -/
theorem decodeWith_of_fetchWith_ok {i : Instr} (h : fetchWith m s = .ok i) :
    ∃ rest, decodeWith m (s.mem.window s.pc.toNat 3) = .ok (i, rest) := by
  unfold fetchWith at h
  split at h
  next j rest hd => cases h; exact ⟨rest, hd⟩
  next => cases h

/-- A fetched instruction lies within memory (R71, R74). -/
theorem fetchWith_ok_width {i : Instr} (h : fetchWith m s = .ok i) : s.pc.toNat + i.width ≤ 256 := by
  obtain ⟨rest, hd⟩ := decodeWith_of_fetchWith_ok h
  have hlen := congrArg List.length (decodedBytesAreTheEncoding m _ rest i hd)
  obtain ⟨hwidth, hpos, _⟩ := Laws.Length.of_any i m
  rw [Memory.length_window, List.length_append, hwidth] at hlen
  omega

/-- Bytes that stand in memory from the program counter on start the window there. -/
theorem Memory.window_of_reads {mem : Memory} {k n : Nat} {bs : List Byte} (hk : k + bs.length ≤ 256)
    (hn : bs.length ≤ n) (h : ∀ j, ∀ hj : j < bs.length, mem.read (k + j) = bs[j]) :
    ∃ rest, mem.window k n = bs ++ rest := by
  induction bs generalizing k n with
  | nil => exact ⟨_, rfl⟩
  | cons b bs ih =>
    rw [List.length_cons] at hk hn
    obtain ⟨n, rfl⟩ : ∃ n', n = n' + 1 := ⟨n - 1, by omega⟩
    obtain ⟨rest, hrest⟩ := ih (k := k + 1) (n := n) (by omega) (by omega) fun j hj => by
      rw [show k + 1 + j = k + (j + 1) by omega, h (j + 1) (by simpa using hj)]
      rfl
    have hb : mem.read k = b := h 0 (Nat.succ_pos _)
    exact ⟨rest, by rw [Memory.window_succ _ _ (by omega), hrest, hb]; rfl⟩

/-- An instruction whose encoding stands at the program counter is fetched. -/
theorem fetch_of_codeAt {i : Instr} (h : s.CodeAt (encode i)) : fetch s = .ok i := by
  obtain ⟨hlen, hreads⟩ := h
  obtain ⟨hwidth, _, hle⟩ := Laws.Length.of_any i opcodeMap
  obtain ⟨rest, hrest⟩ := Memory.window_of_reads (n := 3) hlen (by rw [encode, hwidth]; exact hle) hreads
  apply fetchWith_of_decodeWith_ok (rest := rest)
  rw [hrest]
  exact decodeEncodeAgree opcodeMap hardwareOpcodeMapIsLegal i rest

end

/-! ### The step -/

/-- Settles O22: each clause is the fetch of its class of opcode byte, and the step takes its fault or runs what it
gives. -/
theorem fetchReportsTheFirstFault : Obligations.FetchReportsTheFirstFault := by
  intro m s hr
  split
  next hp => exact stepWith_of_fetchWith_error hr (fetchWith_beyond hp)
  next hp =>
  replace hp : s.pc.toNat < 256 := by omega
  cases hc : classify m (s.mem.read s.pc.toNat) with
  | unknown => exact stepWith_of_fetchWith_error hr (fetchWith_unknown hp hc)
  | aluUndefined =>
    dsimp only
    split
    next ht => exact stepWith_of_fetchWith_error hr (fetchWith_aluUndefined_truncated hp ht hc)
    next ht => exact stepWith_of_fetchWith_error hr (fetchWith_aluUndefined (by omega) hc)
  | known k =>
    dsimp only
    split
    next ht => exact stepWith_of_fetchWith_error hr (fetchWith_known_truncated hp ht hc)
    next ht => exact stepWith_of_fetchWith_ok hr (fetchWith_known (by omega) hc)

/-- Settles O24: such a byte is unknown, and its fetch looks no further. -/
theorem unknownOpcodeFaults : Obligations.UnknownOpcodeFaults := fun _ _ hr hp h5 hne =>
  stepWith_of_fetchWith_error hr (fetchWith_unknown (Nat.lt_succ_of_le hp) (classify_unknown h5 hne))

/-- Settles O3: memory at reset reads 0 at address 0, which is no opcode of a legal map. -/
theorem emptyMemoryHaltsAtOnce : Obligations.EmptyMemoryHaltsAtOnce := by
  intro m hm
  obtain ⟨_, _, _, hzero⟩ := hm
  exact unknownOpcodeFaults m State.reset rfl (Nat.zero_le _) rfl fun k hk =>
    hzero k (List.mem_append_right _ hk)

/-- The step of a RUNNING machine with an instruction's encoding at the program counter runs it. -/
theorem step_of_codeAt {i : Instr} {s : State} (hr : s.running = true) (h : s.CodeAt (encode i)) :
    step s = exec i s :=
  stepWith_of_fetchWith_ok hr (fetch_of_codeAt h)

/-- Settles O16: the step runs what the fetch gives. -/
theorem stepRunsTheDecodedInstruction : Obligations.StepRunsTheDecodedInstruction :=
  ⟨fun _ _ _ _ hr h => stepWith_of_fetchWith_ok hr (fetchWith_of_decodeWith_ok h), fun _ _ => step_of_codeAt⟩

/-- Settles O17: a step and a run look at `running` first, and a transition is of a RUNNING machine. -/
theorem haltedMachineDoesNothing : Obligations.HaltedMachineDoesNothing := by
  refine fun m s h => ⟨?_, fun n => runFor_of_halted n h, fun t ⟨hr, _⟩ => ?_⟩
  · rcases stepWith_cases m s with ⟨_, hs⟩ | ⟨hr, _⟩ | ⟨hr, _⟩
    · exact hs
    · simp [h] at hr
    · simp [h] at hr
  · simp [h] at hr

/-- The window at the decremented stack pointer starts with the byte there. -/
theorem window_at_pushed {s u : State} {mem : Memory} (hpc : u.pc.toNat + 1 = (s.reg 7).toNat)
    (hread : u.mem.read u.pc.toNat = mem.read u.pc.toNat) :
    ∃ rest, u.mem.window u.pc.toNat 3 = mem.read ((s.reg 7).toNat - 1) :: rest := by
  have := (s.reg 7).isLt
  refine ⟨u.mem.window (u.pc.toNat + 1) 2, ?_⟩
  rw [Memory.window_succ _ 2 (by omega), hread, show u.pc.toNat = (s.reg 7).toNat - 1 by omega]

/-- Settles O14: a push stores its byte at the decremented stack pointer, where the window starts. -/
theorem storeIsSeenByTheNextFetch : Obligations.StoreIsSeenByTheNextFetch := by
  constructor
  · refine fun r s h => ⟨_, exec_push_regByte r s h, fun u hpc hread => ?_⟩
    obtain ⟨rest, hrest⟩ := window_at_pushed hpc hread
    exact ⟨rest, by rw [hrest, State.advance_mem, State.push_read _ _ h]⟩
  · refine fun r s hp h => ⟨_, exec_call_regByte r s hp h, fun u hpc hread => ?_⟩
    obtain ⟨rest, hrest⟩ := window_at_pushed hpc hread
    refine ⟨_, rest, hrest, ?_⟩
    rw [State.setPc_mem, State.push_read _ _ h, BitVec.toNat_ofNat]
    omega

end Sys2Proof.Machine
end

section
/-!
SUPPORT. The invariant (spec/10_state.md R14, R16, R19, R21; spec/60_exceptions.md R120) and what follows for runs:
reset and load establish it, every step keeps it, so every run of a loaded program meets it.
-/

namespace Sys2Proof.Machine

/-! ### What the effect does to the program counter, the flags and memory -/

/-- The program counter after an instruction: at the next one, at a byte's address, or where it was (R15, R105,
R110). -/
theorem effect_pc_cases (i : Instr) (s : State) :
    (effect i s).pc = s.pc + BitVec.ofNat 9 i.width ∨ (∃ v : Byte, (effect i s).pc = v.setWidth 9) ∨
    (effect i s).pc = s.pc := by
  cases i with
  | add | sub | mul | div | cmp | ldi | prn | push | pop => exact .inl rfl
  | call a => exact .inr (.inl ⟨if opReg a = 7 then s.reg 7 - 1 else s.reg (opReg a), rfl⟩)
  | ret => exact .inr (.inl ⟨s.mem.read s.sp.toNat, rfl⟩)
  | jmp a => exact .inr (.inl ⟨s.reg (opReg a), rfl⟩)
  | jeq a =>
    by_cases he : s.fl.getLsbD 0 = true
    · exact .inr (.inl ⟨s.reg (opReg a), if_pos he⟩)
    · exact .inl (if_neg he)
  | jne a =>
    by_cases he : s.fl.getLsbD 0 = true
    · exact .inl (if_pos he)
    · exact .inr (.inl ⟨s.reg (opReg a), if_neg he⟩)
  | hlt => exact .inr (.inr rfl)

/-- An instruction that lies within memory leaves the program counter at most one beyond it (R14). -/
theorem effect_pc_le {i : Instr} {s : State} (h : s.pc.toNat + i.width ≤ 256) :
    (effect i s).pc.toNat ≤ 256 := by
  rcases effect_pc_cases i s with hpc | ⟨v, hpc⟩ | hpc
  · rw [hpc, BitVec.toNat_add, BitVec.toNat_ofNat]
    omega
  · have := v.isLt
    rw [hpc, toNat_target]
    omega
  · rw [hpc]
    omega

/-- The effect writes `fl` by a comparison or not at all (R17). -/
theorem effect_legalFlags (i : Instr) {s : State} (h : legalFlags s.fl) : legalFlags (effect i s).fl := by
  cases i with
  | cmp a b => exact .inr (compareFlags_cases _ _)
  | _ => exact h

/-- The effect keeps memory canonical: it writes at byte addresses only. -/
theorem effect_mem_wf (i : Instr) {s : State} (h : s.mem.wf) : (effect i s).mem.wf := by
  by_cases hi : ∃ a, i = .push a ∨ i = .call a
  · obtain ⟨v, hv⟩ := effect_stores hi s
    obtain ⟨_, hmem⟩ := hv s.mem
    exact hmem ▸ Memory.write_wf h (BitVec.isLt _) v
  · exact effect_mem hi s ▸ h

/-! ### Faults are those of R120 -/

theorem memoryRange_legal {m : OpcodeMap} {a : Int} (h : a = -1 ∨ a = 256) : (memoryRange a).Legal m := h

/-- The fault of a fetch is one of R120, at a program counter of at most 256. -/
theorem fetchWith_error_legal {m : OpcodeMap} {s : State} {f : FaultStatus} (hpc : s.pc.toNat ≤ 256)
    (h : fetchWith m s = .error f) : f.Legal m := by
  rcases fetchWith_error h with ⟨hp, rfl⟩ | ⟨rfl, hc⟩ | rfl | ⟨rfl, hc⟩
  · exact memoryRange_legal (.inr (by omega))
  · exact ⟨_, rfl, hc⟩
  · exact memoryRange_legal (.inr rfl)
  · exact ⟨_, rfl, hc⟩

/-- The fault of an instruction is one of R120. -/
theorem execFault_legal (m : OpcodeMap) {i : Instr} {s : State} {f : FaultStatus} (h : execFault i s = some f) :
    f.Legal m := by
  cases execFault_cause h with
  | @index _ v bad =>
    have h7 : 7 < v.toNat := by simpa using List.find?_some bad
    have hv := v.isLt
    exact ⟨by simp only [registerIndexRange]; omega, by simp only [registerIndexRange]; omega⟩
  | divisor a rb =>
    have hrb := rb.isLt
    exact ⟨Int.natCast_nonneg _, by simp only [divideByZero]; omega⟩
  | returnAddress | popTop | retTop => exact memoryRange_legal (.inr rfl)
  | callBottom | pushBottom => exact memoryRange_legal (.inl rfl)

/-! ### The invariant -/

/-- Fault entry keeps the invariant when the fault is one of R120. -/
theorem State.Inv.takeFault {m : OpcodeMap} {s : State} (h : s.Inv m) {f : FaultStatus} (hf : f.Legal m) :
    (s.takeFault f).Inv m where
  mem_wf := h.mem_wf
  pc_le := h.pc_le
  fl_legal := h.fl_legal
  running_no_fault := nofun
  fault_legal := hf

/-- The effect of an instruction that lies within memory keeps the invariant. -/
theorem State.Inv.effect {m : OpcodeMap} {i : Instr} {s : State} (h : s.Inv m)
    (hi : s.pc.toNat + i.width ≤ 256) : (effect i s).Inv m where
  mem_wf := effect_mem_wf i h.mem_wf
  pc_le := effect_pc_le hi
  fl_legal := effect_legalFlags i h.fl_legal
  running_no_fault hr := by
    rw [effect_fault]
    by_cases hhlt : i = .hlt
    · subst hhlt
      cases hr
    · exact h.running_no_fault (effect_running hhlt s ▸ hr)
  fault_legal := (effect_fault i s).symm ▸ h.fault_legal

/-- Settles O19: a step does nothing, has the effect of an instruction that lies within memory, or takes a fault of
R120. -/
theorem stepKeepsTheInvariant : Obligations.StepKeepsTheInvariant := by
  intro s t hs h
  rcases step_eq_next h with ⟨_, rfl⟩ | ⟨_, i, hi, hexec⟩ | ⟨_, f, hf, _, rfl⟩
  · exact hs
  · rcases exec_eq_next hexec with ⟨f, hf, rfl⟩ | ⟨_, rfl⟩
    · exact hs.takeFault (execFault_legal _ hf)
    · exact hs.effect (fetchWith_ok_width hi)
  · exact hs.takeFault (fetchWith_error_legal hs.pc_le hf)

/-- Settles O1: R23's values. -/
theorem resetLeavesTheStatedValues : Obligations.ResetLeavesTheStatedValues := by
  refine ⟨rfl, fun r hr => ?_, rfl, rfl, rfl, rfl, fun _ => rfl, rfl⟩
  have h7 : (7 : Nat) ≠ r.val := fun e => hr (Fin.ext e.symm)
  simp [State.reg, State.reset, h7]

/-- Reset with any canonical memory meets the invariant. -/
theorem reset_withMem_inv {mem : Memory} (h : mem.wf) : ({ State.reset with mem := mem } : State).Inv opcodeMap where
  mem_wf := h
  pc_le := Nat.zero_le _
  fl_legal := .inl rfl
  running_no_fault _ := rfl
  fault_legal := rfl

/-- Settles O2: memory at reset is empty, which is canonical. -/
theorem resetMeetsTheInvariant : Obligations.ResetMeetsTheInvariant :=
  reset_withMem_inv Memory.wf_nil

/-! ### Runs -/

/-- A run from a state that meets the invariant answers one that does. -/
theorem runFor_inv (n : Nat) {s : State} (h : s.Inv opcodeMap) :
    ∃ t, runFor n s = .next t ∧ t.Inv opcodeMap := by
  induction n generalizing s with
  | zero => exact ⟨s, rfl, h⟩
  | succ n ih =>
    cases hr : s.running with
    | false => exact ⟨s, runFor_of_halted _ hr, h⟩
    | true =>
      obtain ⟨t, ht⟩ := step_answers s
      rw [runFor_succ_of_running n hr ht]
      exact ih (stepKeepsTheInvariant s t h ht)

/-- Settles O20: a load is reset with canonical memory. -/
theorem runsOfLoadedProgramsMeetTheInvariant : Obligations.RunsOfLoadedProgramsMeetTheInvariant := by
  intro bytes s n h
  obtain ⟨_, hs⟩ := Option.ite_none_right_eq_some.mp h
  cases hs
  exact runFor_inv n (reset_withMem_inv (Memory.place_wf Memory.wf_nil 0 bytes))

/-- A run that reached a HALTED state stays there (R79). -/
theorem runFor_add_of_halted {n : Nat} {s t : State} (h : runFor n s = .next t) (ht : t.running = false) (k : Nat) :
    runFor (n + k) s = .next t := by
  induction n generalizing s with
  | zero => cases h; exact runFor_of_halted _ ht
  | succ n ih =>
    cases hr : s.running with
    | false => rw [← h, runFor_of_halted _ hr, runFor_of_halted _ hr]
    | true =>
      obtain ⟨u, hu⟩ := step_answers s
      rw [runFor_succ_of_running n hr hu] at h
      rw [Nat.succ_add, runFor_succ_of_running (n + k) hr hu, ih h]

/-- Settles O21: two runs that reached HALTED states are both the longer run. -/
theorem haltedRunsAreOver : Obligations.HaltedRunsAreOver := by
  refine fun s t n h ht => ⟨runFor_add_of_halted h ht, fun n' t' h' ht' => ?_⟩
  have hlong := runFor_add_of_halted h' ht' n
  rw [Nat.add_comm] at hlong
  exact Host.Outcome.next.inj (hlong.symm.trans (runFor_add_of_halted h ht n'))

/-! ### Addresses out of range -/

/-- A fetch that reports an address out of range: the opcode's, or that of an operand byte (R71, R72, R74). -/
theorem fetchWith_error_memoryRange {m : OpcodeMap} {s : State} {f : FaultStatus} (h : fetchWith m s = .error f)
    (hf : f.code = .memoryRange) : (255 < s.pc.toNat ∧ f = memoryRange s.pc.toNat) ∨ (f = memoryRange 256 ∧
      ((∃ k, classify m (s.mem.read s.pc.toNat) = .known k ∧ s.pc.toNat + k.operandCount ≥ 256) ∨
        (classify m (s.mem.read s.pc.toNat) = .aluUndefined ∧ s.pc.toNat + 2 ≥ 256))) := by
  rcases fetchWith_error h with hp | ⟨rfl, _⟩ | rfl | ⟨rfl, _⟩
  · exact .inl hp
  · cases hf
  · by_cases hp : s.pc.toNat < 256
    case neg =>
      have := Except.error.inj (h.symm.trans (fetchWith_beyond (Nat.not_lt.mp hp)))
      exact .inl ⟨by omega, this⟩
    refine .inr ⟨rfl, ?_⟩
    cases hc : classify m (s.mem.read s.pc.toNat) with
    | unknown => cases h.symm.trans (fetchWith_unknown hp hc)
    | aluUndefined =>
      refine .inr ⟨rfl, Nat.le_of_not_lt fun ht => ?_⟩
      cases h.symm.trans (fetchWith_aluUndefined ht hc)
    | known k =>
      refine .inl ⟨k, rfl, Nat.le_of_not_lt fun ht => ?_⟩
      cases h.symm.trans (fetchWith_known (Nat.le_of_lt_succ ht) hc)
  · cases hf

/-- Settles O11: the primitives by their range, and the causes of MemoryRange at the fetch and in an instruction. -/
theorem memoryPrimitivesAndTheirRange : Obligations.MemoryPrimitivesAndTheirRange := by
  refine ⟨fun s a => memRead_inRange s, fun s a => memRead_outOfRange s, fun s a v h0 h => ?_,
    fun s a v => memWrite_outOfRange s v, fun s t hs hr h ht => ?_⟩
  · exact ⟨_, memWrite_inRange s v h0 h, Memory.read_write_self _ _ v,
      fun _ hx => Memory.read_write_ne _ v hx, rfl⟩
  have hpc := hs.pc_le
  rcases step_eq_next h with ⟨hr', _⟩ | ⟨_, i, hi, hexec⟩ | ⟨_, f, hf, _, rfl⟩
  · simp [hr] at hr'
  · rcases exec_eq_next hexec with ⟨f, hf, rfl⟩ | ⟨_, rfl⟩
    · cases execFault_cause hf with
      | index | divisor => cases ht
      | returnAddress a hp =>
        have hw : s.pc.toNat + 2 ≤ 256 := fetchWith_ok_width hi
        exact .inl ⟨rfl, .inr (.inr (.inr (.inr (.inr ⟨⟨a, hi⟩, by omega⟩))))⟩
      | popTop a htop => exact .inl ⟨rfl, .inr (.inr (.inr (.inl ⟨a, hi, htop⟩)))⟩
      | retTop htop => exact .inl ⟨rfl, .inr (.inr (.inr (.inr (.inl ⟨hi, htop⟩))))⟩
      | pushBottom a h0 => exact .inr ⟨rfl, h0, .inl ⟨a, hi⟩⟩
      | callBottom a h0 => exact .inr ⟨rfl, h0, .inr ⟨a, hi⟩⟩
    · rw [effect_fault, hs.running_no_fault hr] at ht
      cases ht
  · rcases fetchWith_error_memoryRange hf ht with ⟨hp, rfl⟩ | ⟨rfl, hk | halu⟩
    · have h256 : s.pc.toNat = 256 := by omega
      exact .inl ⟨congrArg Nat.cast h256, .inl h256⟩
    · exact .inl ⟨rfl, .inr (.inl hk)⟩
    · exact .inl ⟨rfl, .inr (.inr (.inl halu))⟩

end Sys2Proof.Machine
end

section
/-!
SUPPORT. Laws of pairs of instructions (spec/95_test_vectors.md T2 to T5): each from the states the two
instructions answer.
-/

namespace Sys2Proof.Machine

/-- Where the decremented stack pointer is read again, it is the address the push stored at. -/
theorem read_pushed_of_eq {s t : State} {v : Byte} (h : s.reg 7 ≠ 0) (hsp : t.reg 7 = s.reg 7 - 1)
    (hread : t.mem.read ((s.reg 7).toNat - 1) = (s.push v).mem.read ((s.reg 7).toNat - 1)) :
    t.mem.read (t.reg 7).toNat = v := by
  rw [hsp, toNat_sub_one h, hread, State.push_read s v h]

/-- A decremented stack pointer can be incremented (R42). -/
theorem sub_one_ne_top {v : Byte} (h : v ≠ 0) : v - 1 ≠ 0xFF := by
  intro e
  have hv := v.isLt
  have htop : v.toNat - 1 = 255 := (toNat_sub_one h).symm.trans (congrArg BitVec.toNat e)
  omega

/-- Settles O52: POP loads what PUSH stored and increments what PUSH decremented. -/
theorem pushThenPopRestores : Obligations.PushThenPopRestores := by
  intro rs rd s hrs hrd h
  have hpush := exec_push_regByte rs s h
  rw [if_neg hrs] at hpush
  refine ⟨_, hpush, fun t' hsp hmem => ?_⟩
  rw [State.reg_advance, State.push_reg_seven] at hsp
  have hpop := exec_pop_regByte rd t' hrd (hsp ▸ sub_one_ne_top h)
  rw [read_pushed_of_eq h hsp hmem, hsp, BitVec.sub_add_cancel] at hpop
  refine ⟨_, hpop, by simp [hrd], by simp, hmem.trans (State.push_read s _ h),
    by simpa [regsWritten] using exec_regs hpop, ?_⟩
  rintro rfl
  refine ⟨by simp [State.push, BitVec.add_assoc], ?_⟩
  rintro rfl q
  by_cases hq7 : q = 7
  · simp [hq7]
  by_cases hqs : q = rs
  · simp [hqs, hrs]
  · simp [hq7, hqs]

/-- Settles O53: RET jumps to what CALL stored and increments what CALL decremented. -/
theorem returnResumesAfterTheCall : Obligations.ReturnResumesAfterTheCall := by
  intro ra s hp h
  refine ⟨_, exec_call_regByte ra s hp h, fun t' hsp hmem => ?_⟩
  rw [State.reg_setPc, State.push_reg_seven] at hsp
  have hret := exec_ret t' (hsp ▸ sub_one_ne_top h)
  rw [read_pushed_of_eq h hsp hmem, hsp, BitVec.sub_add_cancel] at hret
  refine ⟨_, hret, ?_, by simp, exec_regs hret, rfl⟩
  apply BitVec.eq_of_toNat_eq
  rw [State.setPc_pc, toNat_target, BitVec.toNat_ofNat, BitVec.toNat_add, show (2 : PcWord).toNat = 2 from rfl]
  omega

/-- CMP sets E exactly if its registers hold the same value (R85). -/
theorem compareFlags_equal (u v : Byte) : (compareFlags u v).getLsbD 0 = true ↔ u = v := by
  rcases Nat.lt_trichotomy u.toNat v.toNat with h | h | h
  · have hne : u ≠ v := fun e => absurd (e ▸ h) (Nat.lt_irrefl _)
    simp [compareFlags, h, flagL, hne]
  · simp [compareFlags, flagE, BitVec.eq_of_toNat_eq h]
  · have hne : u ≠ v := fun e => absurd (e ▸ h) (Nat.lt_irrefl _)
    simp [compareFlags, h, Nat.lt_asymm h, flagG, hne]

/-- Settles O54: the jumps look at E, which CMP sets exactly if the registers are equal. -/
theorem compareThenConditionalJump : Obligations.CompareThenConditionalJump := by
  refine fun ra rb rc s => ⟨_, exec_cmp_regByte ra rb s, fun t' hfl => ?_⟩
  have he : t'.fl.getLsbD 0 = true ↔ s.reg ra = s.reg rb := by
    rw [hfl]
    exact compareFlags_equal _ _
  rw [exec_jeq_regByte, exec_jne_regByte]
  simp only [he, and_self]

/-- Code at the program counter is its first part there and its second part behind it. -/
theorem State.codeAt_append {s : State} {bs cs : List Byte} (h : s.CodeAt (bs ++ cs)) :
    s.CodeAt bs ∧ ∀ t : State, t.pc.toNat = s.pc.toNat + bs.length → t.mem = s.mem → t.CodeAt cs := by
  obtain ⟨hlen, hreads⟩ := h
  rw [List.length_append] at hlen
  refine ⟨⟨by omega, fun k hk => ?_⟩, fun t hpc hmem => ⟨by omega, fun k hk => ?_⟩⟩
  · rw [hreads k (by rw [List.length_append]; omega), List.getElem_append_left hk]
  · rw [hmem, hpc, Nat.add_assoc, hreads (bs.length + k) (by rw [List.length_append]; omega),
      List.getElem_append_right (Nat.le_add_right _ _)]
    simp

/-- Settles O55: LDI runs at the program counter and PRN three bytes later, in unchanged memory. -/
theorem loadThenPrintEmitsTheLiteral : Obligations.LoadThenPrintEmitsTheLiteral := by
  intro r v s hr hcode
  have hend : s.pc.toNat + 5 ≤ 256 := hcode.1
  obtain ⟨hldi, hprn⟩ := State.codeAt_append hcode
  have hstep := (step_of_codeAt hr hldi).trans (exec_ldi_regByte r s v)
  have hpc : ((s.setReg r v).advance 3).pc.toNat = s.pc.toNat + 3 := by
    rw [State.advance_pc, State.setReg_pc, BitVec.toNat_add, BitVec.toNat_ofNat]
    omega
  have hstep' := (step_of_codeAt (s := (s.setReg r v).advance 3) hr (hprn _ hpc rfl)).trans
    (exec_prn_regByte r _)
  refine ⟨_, (runFor_succ_of_running 1 hr hstep).trans (runFor_succ_of_running 0 hr hstep'), ?_⟩
  exact ⟨by simp, by simp, by simp [BitVec.add_assoc],
    fun q hq => State.reg_setReg_ne s v (by simpa using hq), rfl, hr, rfl, fun _ => rfl⟩

end Sys2Proof.Machine
end
